-- ==== Sys2Proof/Word.lean ====
section
/-! DEFINITION. The two bit widths of the core (R8): bytes and 32-bit words, all unsigned. -/

namespace Sys2Proof

/-- `u32` of R8: a chain, counter, flag, message, working or bus word (WORD_BITS = BUS_BITS = 32). -/
abbrev Word := BitVec 32

/-- `u8` of R8. -/
abbrev Byte := BitVec 8

end Sys2Proof
end

