-- ==== Sys2Proof/Config.lean ====
section
/-! DEFINITION. The fixed parameters of R5 and R6 that definitions use by name, and the model's one free value.
BLOCK_BYTES (64), BUF_BYTES (128), CHAIN_WORDS (8), MSG_WORDS and WORK_WORDS (16), COUNTER_BITS (64) and
LEN_BITS (24) stand as literals, most of them in types.
N_INSTANCES and CORE_BASE are data of `Machine.System`; no rule depends on LATENCY (R237). -/

namespace Sys2Proof.Config

/-- MAX_OUT of R5: legal digest sizes are 1..32. -/
def maxOut : Nat := 32

/-- MAX_KEY of R5: legal key lengths are 1..32. -/
def maxKey : Nat := 32

/-- WINDOW_BYTES of R6: offsets 0x00..0x3F. -/
def windowBytes : Nat := 64

/-- LEN_BITS of R6 and R74: the longest UPDATE, 2^24 - 1 bytes. -/
def maxUpdate : Nat := 16777215

/-- The byte at index `j` of the upper half of the buffer after shift number `shift` of the run.
R134: "The contents of buf[64..127] after the shift are not specified", so it is a free value with no body
(assumption 4). -/
opaque freeShiftByte (shift j : Nat) : Byte

end Sys2Proof.Config
end

