-- ==== Sys2Proof/Syntax.lean ====
section
/-! DEFINITION. The instruction set: one constructor per row of spec/opcode_table.json. -/

namespace Sys2Proof

/-- One CMD word as the command sequencer reads it (R70, R79).
The fields are the bit fields of the encodings, unsigned (R78). -/
inductive Instr where
  /-- INIT (R72, R104): unkeyed construction with digest size `nn`. -/
  | init (nn : Byte)
  /-- INIT_KEYED (R73, R105): keyed construction with digest size `nn` and key length `kk`. -/
  | initKeyed (nn kk : Byte)
  /-- KEYWORD (R76, R106): a payload word that carries key bytes. -/
  | keyword (w : Word)
  /-- UPDATE (R74, R131): announces `len` data bytes. -/
  | update (len : BitVec 24)
  /-- DATAWORD (R76, R132): a payload word that carries message bytes. -/
  | dataword (w : Word)
  /-- FINALIZE (R75, R150). -/
  | finalize
deriving DecidableEq, Repr

/-- How the sequencer reads the next CMD word: as a header, or as a payload word of the pending command (R70). -/
inductive WordKind where
  | header
  | key
  | data
deriving DecidableEq, Repr

/-- The kind of word each instruction is spelled by. -/
def Instr.kind : Instr → WordKind
  | .init _ => .header
  | .initKeyed _ _ => .header
  | .keyword _ => .key
  | .update _ => .header
  | .dataword _ => .data
  | .finalize => .header

end Sys2Proof
end

