-- ==== Sys2Proof/Decode.lean ====
section
/-! DEFINITION. The decoder of CMD words (R70..R80), total on every 32-bit word, and the encoder. -/

namespace Sys2Proof

/-- Why a header word is no command; both raise ILLEGAL (R202), in this order (R207). -/
inductive DecodeReject where
  /-- OPCODE 0x00 or 0x05..0xFF (R80). -/
  | reservedOpcode
  /-- A nonzero reserved bit of the word's format (R71, R80). -/
  | reservedBits
deriving DecidableEq, Repr

/-- The OPCODE field, bits [7:0] of every header (R71). -/
def opcodeField (w : Word) : Byte := w.extractLsb' 0 8

/-- The NN field, bits [15:8] (R72, R73). -/
def nnField (w : Word) : Byte := w.extractLsb' 8 8

/-- The KK field, bits [23:16] (R73). -/
def kkField (w : Word) : Byte := w.extractLsb' 16 8

/-- The LEN field, bits [31:8] (R74). -/
def lenField (w : Word) : BitVec 24 := w.extractLsb' 8 24

/-- A header word by its OPCODE and reserved bits (R79); ranges of NN and KK are checked after decoding. -/
def decodeHeader (w : Word) : Except DecodeReject Instr :=
  if opcodeField w = 0x01 then
    if w.extractLsb' 16 16 = 0 then .ok (.init (nnField w)) else .error .reservedBits
  else if opcodeField w = 0x02 then
    if w.extractLsb' 24 8 = 0 then .ok (.initKeyed (nnField w) (kkField w)) else .error .reservedBits
  else if opcodeField w = 0x03 then
    .ok (.update (lenField w))
  else if opcodeField w = 0x04 then
    if w.extractLsb' 8 24 = 0 then .ok .finalize else .error .reservedBits
  else .error .reservedOpcode

/-- A CMD word in its context (R70): "A payload word is never decoded as a header, whatever its bits, and a header word
is never taken as payload." -/
def decodeWord (k : WordKind) (w : Word) : Except DecodeReject Instr :=
  match k with
  | .header => decodeHeader w
  | .key => .ok (.keyword w)
  | .data => .ok (.dataword w)

/-- The word that spells an instruction (R72..R76): each field at its place, the reserved bits 0. -/
def encode : Instr → Word
  | .init nn => (0x01 : Word) ||| (nn.setWidth 32 <<< 8)
  | .initKeyed nn kk => (0x02 : Word) ||| (nn.setWidth 32 <<< 8) ||| (kk.setWidth 32 <<< 16)
  | .keyword w => w
  | .update len => (0x03 : Word) ||| (len.setWidth 32 <<< 8)
  | .dataword w => w
  | .finalize => 0x04

/-- The host's probe: the instruction a CMD word spells to a core that waits for a header, as after reset.
The payload rows KEYWORD and DATAWORD have no words of their own there (R70; assumption 10). -/
def decodeTableWord (nbits w : Nat) : Option Instr :=
  if 32 < nbits then none
  else match decodeWord .header (BitVec.ofNat 32 w) with
    | .ok i => some i
    | .error _ => none

end Sys2Proof
end

