-- ==== Sys2Proof/Machine/State.lean ====
section
/-! DEFINITION. The state of the core (R20), the host's inputs, and the ways a step can stop. -/

namespace Sys2Proof.Machine

/-- The lifecycle phase (R27). -/
inductive Phase where
  | idle
  | absorb
  | done
  | error
deriving DecidableEq, Repr

/-- The cause codes of R201; the values 6..15 of the 4-bit field are "never produced". -/
inductive ErrCode where
  | none
  | illegal
  | badDigestSize
  | badKeyLen
  | sequence
  | digestRead
deriving DecidableEq, Repr

/-- What the pending payload bytes are (R29). -/
inductive RxOp where
  | none
  | key
  | data
deriving DecidableEq, Repr

/-- The width of a bus access; only `word` has a meaning (R52). -/
inductive AccessSize where
  | byte
  | half
  | word
deriving DecidableEq, Repr

/-- What the outside world does to the core: the host's BusWrite and BusRead at an offset from the window base (R9, R51),
and the platform's reset (R230). -/
inductive Input where
  | write (size : AccessSize) (off : Nat) (w : Word)
  | read (size : AccessSize) (off : Nat)
  | reset
deriving DecidableEq, Repr

/-- Reasons for the machine to stop with a fault.
There is none: the core's errors are the recorded phase ERROR (R200), which the machine enters and goes on from, and
"No access is stuck and no step hangs" (R10). Nothing raises a fault; safe. -/
inductive Fault where
deriving DecidableEq, Repr

/-- Reasons for a step to have no meaning. -/
inductive Refusal where
  /-- Raised by `exec` alone, for an instruction without a meaning yet; no arm raises it now. Safe. -/
  | notModelled (mnemonic : String)
  /-- Raised by a byte or halfword access: "A model refuses such an access" (R52). Safe. -/
  | subWordAccess
  /-- Raised by a word access at an offset that is no multiple of 4: "A model refuses such an access" (R52). Safe. -/
  | misalignedAccess
  /-- Raised by an access at an offset of 64 or more, which is no access of the core's window; what it does is the
  platform's choice (R65). Safe. -/
  | outsideWindow
  /-- Raised by a CMD write when `rx_left` is not 0 while `rx_op` is NONE, which R26 (e) rules out: there is no pending
  command whose payload the word could be (R70). No run reaches it. Safe. -/
  | noPendingCommand
deriving DecidableEq, Repr

/-- The whole persistent state of the core (R20), and three fields of the model's own. -/
structure State where
  /-- The chain value (R21). -/
  h : Vector Word 8
  /-- `t[0]`, the low word of the byte counter (R22). -/
  t0 : Word
  /-- `t[1]`, the high word of the byte counter (R22). -/
  t1 : Word
  /-- `f[0]`, the last-block flag (R23). -/
  f0 : Word
  /-- `f[1]`, always 0 (R23). -/
  f1 : Word
  /-- The two-block buffer (R24). -/
  buf : Vector Byte 128
  /-- The count of valid bytes in `buf`, 0..128 (R25). -/
  buflen : Nat
  /-- The lifecycle phase (R27). -/
  phase : Phase
  /-- The cause of the first error since reset (R28). -/
  errcode : ErrCode
  /-- The information that error recorded (R28). -/
  errword : Word
  /-- `rx_op` (R29). -/
  rxOp : RxOp
  /-- `rx_left`, the payload bytes still to come (R29). -/
  rxLeft : BitVec 24
  /-- The model's own: the inputs still to be performed, first one first (assumption 1). -/
  pending : List Input
  /-- The model's own: the word the access just performed returned to the host (assumption 3). -/
  readData : Option Word
  /-- The model's own: how many buffer shifts have run; it indexes the free values of `Config` (assumption 4). -/
  freeCtr : Nat
deriving DecidableEq, Repr

/-- The state after reset: the table of R37, with no input pending. -/
def State.reset : State where
  h := Vector.replicate 8 0
  t0 := 0
  t1 := 0
  f0 := 0
  f1 := 0
  buf := Vector.replicate 128 0
  buflen := 0
  phase := .idle
  errcode := .none
  errword := 0
  rxOp := .none
  rxLeft := 0
  pending := []
  readData := none
  freeCtr := 0

/-- What an instruction or a step answers. -/
abbrev Result := Host.Outcome State Fault Refusal

end Sys2Proof.Machine
end

