-- ==== Sys2Proof/Machine/Operands.lean ====
section
/-! DEFINITION. Byte order and operand forms: little-endian loads (R55), digest bytes (R56), payload lanes (R57, R76),
and the parameter block (R100, R101). -/

namespace Sys2Proof.Machine

/-- Four bytes, lowest address first, as a word (the formula of R55). -/
def wordOfBytes (b0 b1 b2 b3 : Byte) : Word :=
  b0.setWidth 32 ||| (b1.setWidth 32 <<< 8) ||| (b2.setWidth 32 <<< 16) ||| (b3.setWidth 32 <<< 24)

/-- `LE32(b, o)` of R55, over a 64-byte sequence. -/
def le32 (b : Vector Byte 64) (o : Nat) (ho : o + 3 < 64) : Word :=
  wordOfBytes b[o] b[o + 1] b[o + 2] b[o + 3]

/-- Byte lane `j` of a word, `w[8j+7 : 8j]` (R56, R57). -/
def lane (w : Word) (j : Nat) : Byte := w.extractLsb' (8 * j) 8

/-- The four bytes of a word in stream order (R57). -/
def lanes (w : Word) : List Byte := [lane w 0, lane w 1, lane w 2, lane w 3]

/-- The bytes a payload word carries when `left` bytes are pending: its first min(4, left) lanes; the others "are ignored
and may hold any value" (R76). -/
def payloadBytes (left : Nat) (w : Word) : List Byte := (lanes w).take (min 4 left)

/-- The payload words of a byte sequence, packed as in R57, unused lanes of the last word 0x00 (R81). -/
def packWords : List Byte → List Word
  | [] => []
  | [a] => [wordOfBytes a 0 0 0]
  | [a, b] => [wordOfBytes a b 0 0]
  | [a, b, c] => [wordOfBytes a b c 0]
  | a :: b :: c :: d :: rest => wordOfBytes a b c d :: packWords rest
termination_by structural bs => bs

/-- The parameter block P of R100. -/
def paramBlock (nn kk : Byte) : Vector Byte 64 :=
  Vector.ofFn fun j =>
    if j.val = 0 then nn else if j.val = 1 then kk else if j.val = 2 then 1 else if j.val = 3 then 1 else 0

/-- The parameter word `PW[i] = LE32(P, 4i)` of R101; only P[0..31] is ever loaded. -/
def paramWord (nn kk : Byte) (i : Fin 8) : Word :=
  le32 (paramBlock nn kk) (4 * i.val) (by have := i.isLt; omega)

/-- Digest byte `k` of a chain value, `h[k >> 2][8(k & 3) + 7 : 8(k & 3)]` (R56, R151). -/
def digestByte (h : Vector Word 8) (k : Fin 32) : Byte :=
  lane (h[k.val / 4]'(by have := k.isLt; omega)) (k.val % 4)

/-- The 32 digest bytes, D[0] first (R151). -/
def digestBytes (h : Vector Word 8) : List Byte := List.ofFn (digestByte h)

/-- The host's copy of `finalize(out)` for an output of `len` bytes: min(len, 32) bytes of the digest (R153). -/
def hostDigest (len : Nat) (h : Vector Word 8) : List Byte := (digestBytes h).take (min len Config.maxOut)

end Sys2Proof.Machine
end

