-- ==== Sys2Proof/Machine/Compress.lean ====
section
/-! DEFINITION. The compression function (43_compress.md). -/

namespace Sys2Proof.Machine

/-- The initialization vector (R170). -/
def iv : Vector Word 8 :=
  #v[0x6A09E667, 0xBB67AE85, 0x3C6EF372, 0xA54FF53A, 0x510E527F, 0x9B05688C, 0x1F83D9AB, 0x5BE0CD19]

/-- One row of the message schedule (R171). -/
abbrev SigmaRow := Vector (Fin 16) 16

def sigma0 : SigmaRow := #v[0, 1, 2, 3, 4, 5, 6, 7, 8, 9, 10, 11, 12, 13, 14, 15]
def sigma1 : SigmaRow := #v[14, 10, 4, 8, 9, 15, 13, 6, 1, 12, 0, 2, 11, 7, 5, 3]
def sigma2 : SigmaRow := #v[11, 8, 12, 0, 5, 2, 15, 13, 10, 14, 3, 6, 7, 1, 9, 4]
def sigma3 : SigmaRow := #v[7, 9, 3, 1, 13, 12, 11, 14, 2, 6, 5, 10, 4, 0, 15, 8]
def sigma4 : SigmaRow := #v[9, 0, 5, 7, 2, 4, 10, 15, 14, 1, 11, 12, 6, 8, 3, 13]
def sigma5 : SigmaRow := #v[2, 12, 6, 10, 0, 11, 8, 3, 4, 13, 7, 5, 15, 14, 1, 9]
def sigma6 : SigmaRow := #v[12, 5, 1, 15, 14, 13, 4, 10, 0, 7, 6, 3, 9, 2, 8, 11]
def sigma7 : SigmaRow := #v[13, 11, 7, 14, 12, 1, 3, 9, 5, 0, 15, 4, 8, 6, 2, 10]
def sigma8 : SigmaRow := #v[6, 15, 14, 9, 11, 3, 0, 8, 12, 2, 13, 7, 1, 4, 10, 5]
def sigma9 : SigmaRow := #v[10, 2, 8, 4, 7, 6, 1, 5, 15, 11, 9, 14, 3, 12, 13, 0]

/-- The ten rows of SIGMA, one per round (R171); their number is ROUNDS of R5. -/
def sigma : List SigmaRow :=
  [sigma0, sigma1, sigma2, sigma3, sigma4] ++ [sigma5, sigma6, sigma7, sigma8, sigma9]

/-- `rotr32(x, n)` of R172. -/
def rotr32 (x : Word) (n : Nat) : Word := (x >>> n) ||| (x <<< (32 - n))

/-- `G(v, a, b, c, d, x, y)` of R174, its eight steps in order; each reads what the steps before it wrote. -/
def mixG (v : Vector Word 16) (a b c d : Fin 16) (x y : Word) : Vector Word 16 :=
  let v := v.set a (v[a] + v[b] + x)
  let v := v.set d (rotr32 (v[d] ^^^ v[a]) 16)
  let v := v.set c (v[c] + v[d])
  let v := v.set b (rotr32 (v[b] ^^^ v[c]) 12)
  let v := v.set a (v[a] + v[b] + y)
  let v := v.set d (rotr32 (v[d] ^^^ v[a]) 8)
  let v := v.set c (v[c] + v[d])
  v.set b (rotr32 (v[b] ^^^ v[c]) 7)

/-- The four column invocations of a round (R177). -/
def columnStep (v m : Vector Word 16) (s : SigmaRow) : Vector Word 16 :=
  let v := mixG v 0 4 8 12 m[s[0]] m[s[1]]
  let v := mixG v 1 5 9 13 m[s[2]] m[s[3]]
  let v := mixG v 2 6 10 14 m[s[4]] m[s[5]]
  mixG v 3 7 11 15 m[s[6]] m[s[7]]

/-- The four diagonal invocations of a round (R177). -/
def diagonalStep (v m : Vector Word 16) (s : SigmaRow) : Vector Word 16 :=
  let v := mixG v 0 5 10 15 m[s[8]] m[s[9]]
  let v := mixG v 1 6 11 12 m[s[10]] m[s[11]]
  let v := mixG v 2 7 8 13 m[s[12]] m[s[13]]
  mixG v 3 4 9 14 m[s[14]] m[s[15]]

/-- One round (R177): four columns, then four diagonals. -/
def roundStep (v m : Vector Word 16) (s : SigmaRow) : Vector Word 16 := diagonalStep (columnStep v m s) m s

/-- The message words of a block (R175). -/
def messageWords (b : Vector Byte 64) : Vector Word 16 :=
  Vector.ofFn fun i => le32 b (4 * i.val) (by have := i.isLt; omega)

/-- The working vector at the start of a compression (R176). -/
def workInit (h : Vector Word 8) (t0 t1 f0 f1 : Word) : Vector Word 16 :=
  #v[h[0], h[1], h[2], h[3], h[4], h[5], h[6], h[7],
     iv[0], iv[1], iv[2], iv[3], t0 ^^^ iv[4], t1 ^^^ iv[5], f0 ^^^ iv[6], f1 ^^^ iv[7]]

/-- The new chain value from the old one and the working vector (R178). -/
def chainOut (h : Vector Word 8) (v : Vector Word 16) : Vector Word 8 :=
  Vector.ofFn fun i => h[i] ^^^ v[i.val] ^^^ v[i.val + 8]

/-- `Compress(h, t, f, B)` of R179. -/
@[irreducible] def compress (h : Vector Word 8) (t0 t1 f0 f1 : Word) (b : Vector Byte 64) : Vector Word 8 :=
  chainOut h (sigma.foldl (fun v s => roundStep v (messageWords b) s) (workInit h t0 t1 f0 f1))

end Sys2Proof.Machine
end

