-- ==== Sys2Proof/Machine/Flags.lean ====
section
/-! DEFINITION. The STATUS register (R33) and the finalize flag (R23). -/

namespace Sys2Proof.Machine

/-- STATUS.PHASE (R27, R33). -/
def Phase.bits : Phase → BitVec 2
  | .idle => 0
  | .absorb => 1
  | .done => 2
  | .error => 3

/-- STATUS.ERRCODE (R201, R33). -/
def ErrCode.bits : ErrCode → BitVec 4
  | .none => 0
  | .illegal => 1
  | .badDigestSize => 2
  | .badKeyLen => 3
  | .sequence => 4
  | .digestRead => 5

/-- The STATUS word of R33: PHASE in [1:0], 0 in [3:2], ERRCODE in [7:4], RXLEFT in [31:8]. -/
def State.statusWord (s : State) : Word :=
  s.phase.bits.setWidth 32 ||| (s.errcode.bits.setWidth 32 <<< 4) ||| (s.rxLeft.setWidth 32 <<< 8)

/-- The all-ones value of f[0] that marks the last block (R23). -/
def lastBlockFlag : Word := 0xFFFFFFFF

end Sys2Proof.Machine
end

