-- ==== Sys2Proof/WellFormed.lean ====
section
/-! DEFINITION. Legal operands. Every term of `Instr` has an encoding, since its fields are the bit fields themselves;
an ill-formed one is a header whose field value the core reports as an error when it runs it (R207), so the meanings
cover it. -/

namespace Sys2Proof

/-- "Legal values 1..32" for NN (R72, R73). -/
abbrev legalDigestSize (nn : Byte) : Prop := 1 ≤ nn.toNat ∧ nn.toNat ≤ Config.maxOut

/-- "Legal 1..32" for KK (R73). -/
abbrev legalKeyLen (kk : Byte) : Prop := 1 ≤ kk.toNat ∧ kk.toNat ≤ Config.maxKey

/-- Whether an instruction's operands are all legal: "Every LEN value is legal" (R74), and a payload word "never raises
an error" (R76). -/
def Instr.wellFormed : Instr → Bool
  | .init nn => decide (legalDigestSize nn)
  | .initKeyed nn kk => decide (legalDigestSize nn) && decide (legalKeyLen kk)
  | .keyword _ => true
  | .update _ => true
  | .dataword _ => true
  | .finalize => true

end Sys2Proof
end

