-- ==== Sys2Proof/Machine/Ops.lean ====
section
/-! DEFINITION. The operations the meanings share: error entry and its guard, the receiver, the counter, the buffer, and
the construction, update and finalize algorithms. -/

namespace Sys2Proof.Machine

/-! ## Errors and reset -/

/-- `raise Error(code, info)` of R200, the core's only exception; h, t, f, buf and buflen keep their values. -/
def raiseError (code : ErrCode) (info : Word) (s : State) : State :=
  { s with phase := .error, errcode := code, errword := info, rxOp := .none, rxLeft := 0 }

/-- In phase ERROR "every CMD write is ignored and changes no state" (R208); otherwise the word is acted on. -/
def unlessError (s : State) (act : State → Result) : Result :=
  if s.phase = .error then .next s else act s

/-- The reset input (R230), the only way out of ERROR: every element of R20 takes its value of R37.
The inputs still to come stay pending, and free values go on being fresh (assumption 5). -/
def applyReset (s : State) : State :=
  { State.reset with pending := s.pending, freeCtr := s.freeCtr }

/-! ## The payload receiver -/

/-- How the next CMD word is read (R70); `none` is the combination R26 (e) rules out. -/
def wordKind (s : State) : Option WordKind :=
  if s.rxLeft = 0 then some .header
  else match s.rxOp with
    | .key => some .key
    | .data => some .data
    | .none => none

/-- A header announces `left` payload bytes for `op` (R105, R131). -/
def startReceive (op : RxOp) (left : BitVec 24) (s : State) : State := { s with rxOp := op, rxLeft := left }

/-- A payload word takes `n = min(4, rx_left)` bytes off `rx_left`; at 0 the receiver closes (R106, R132). -/
def takePayload (s : State) : State :=
  let left := s.rxLeft - BitVec.ofNat 24 (min 4 s.rxLeft.toNat)
  { s with rxLeft := left, rxOp := if left = 0 then .none else s.rxOp }

/-! ## The counter -/

/-- The 64-bit byte count `T = zext_64(t[0]) + 2^32 * zext_64(t[1])` (R22). -/
def byteCount (s : State) : BitVec 64 := s.t0.setWidth 64 + 4294967296 * s.t1.setWidth 64

/-- `IncT(n)` of R135: a 64-bit addition, carried into t[1] and wrapping at 2^64. -/
def incT (n : Nat) (s : State) : State :=
  { s with t0 := (byteCount s + BitVec.ofNat 64 n).extractLsb' 0 32,
           t1 := (byteCount s + BitVec.ofNat 64 n).extractLsb' 32 32 }

/-! ## The buffer -/

/-- `buf[o + j] <- bytes[j]` for every j, in order. -/
def bufWrite : Vector Byte 128 → Nat → List Byte → Vector Byte 128
  | buf, _, [] => buf
  | buf, o, b :: bs => bufWrite (buf.setIfInBounds o b) (o + 1) bs

/-- Copies bytes in at the end of the valid ones and counts them (R106, R130 step 3). -/
def appendBytes (bytes : List Byte) (s : State) : State :=
  { s with buf := bufWrite s.buf s.buflen bytes, buflen := s.buflen + bytes.length }

/-- `buf[0..64)`, the block a compression reads (R134, R150). -/
@[irreducible] def frontBlock (buf : Vector Byte 128) : Vector Byte 64 :=
  Vector.ofFn fun i => buf[i.val]'(by have := i.isLt; omega)

/-- `h <- Compress(h, t, f, buf[0..64))` (R134, R150 step 5). -/
def compressFront (s : State) : State :=
  { s with h := compress s.h s.t0 s.t1 s.f0 s.f1 (frontBlock s.buf) }

/-- The bytes of the buffer after shift number `shift` (R134): the second half comes down to the front; what the second
half then holds is not specified, so it is free (assumption 4). -/
@[irreducible] def shiftedBytes (buf : Vector Byte 128) (shift : Nat) : Vector Byte 128 :=
  Vector.ofFn fun i =>
    if hi : i.val < 64 then buf[i.val + 64]'(Nat.add_lt_add_right hi 64) else Config.freeShiftByte shift i.val

/-- "shift the second half of the buffer down to the front" (R134). -/
def shiftBuffer (s : State) : State :=
  { s with buf := shiftedBytes s.buf s.freeCtr, freeCtr := s.freeCtr + 1 }

/-- `AdvanceBlock()` of R134. -/
def advanceBlock (s : State) : State :=
  let s := incT 64 s
  let s := compressFront s
  let s := shiftBuffer s
  { s with buflen := s.buflen - 64 }

/-! ## Construction -/

/-- `InitContext(nn, kk)` of R102. -/
def initContext (nn kk : Byte) (s : State) : State :=
  { s with
    h := Vector.ofFn fun i => iv[i] ^^^ paramWord nn kk i,
    t0 := 0, t1 := 0, f0 := 0, f1 := 0,
    buflen := 0,
    buf := Vector.replicate 128 0,
    phase := .absorb }

/-- The end of key reception: "if rx_left = 0: buflen <- 64" (R106). -/
def closeKeyBlock (s : State) : State := if s.rxLeft = 0 then { s with buflen := 64 } else s

/-! ## Update -/

/-- The loop of `UpdateBytes` (R130), one turn per unit of the first argument. -/
def updateLoop : Nat → List Byte → State → State
  | 0, _, s => s
  | turns + 1, data, s =>
    if 128 - s.buflen < data.length then
      updateLoop turns (data.drop (128 - s.buflen))
        (advanceBlock
          { s with buf := bufWrite s.buf s.buflen (data.take (128 - s.buflen)), buflen := 128 })
    else appendBytes data s

/-- `UpdateBytes(data)` of R130. Only the first turn can take no byte, so one turn more than there are bytes is enough for
the loop to return (`updateLoop_turns` in Laws). -/
def updateBytes (data : List Byte) (s : State) : State := updateLoop (data.length + 1) data s

/-! ## Finalization -/

/-- Step 4 of R150: zero-fill `buf[buflen..64)`. -/
def zeroTail (s : State) : State :=
  { s with buf := bufWrite s.buf s.buflen (List.replicate (64 - s.buflen) 0) }

/-- Step 1 of R150: flush the block the lookahead knows is not final. -/
def flushLookahead (s : State) : State := if 64 < s.buflen then advanceBlock s else s

/-- Step 3 of R150: "second stays zero", so f[1] is not written. -/
def markLast (s : State) : State := { s with f0 := lastBlockFlag }

/-- Steps 2 to 6 of R150, once buflen is at most 64. -/
def closeHash (s : State) : State :=
  let s := incT s.buflen s
  let s := markLast s
  let s := zeroTail s
  let s := compressFront s
  { s with phase := .done }

/-- Steps 1 to 6 of R150. -/
def finishHash (s : State) : State := closeHash (flushLookahead s)

/-! ## Host reads -/

/-- Delivers the word an access returns to the host. -/
def returnData (v : Word) (s : State) : State := { s with readData := some v }

/-- `ReadDigest(i)` of R152; `raise Error` before the 0 is returned. -/
def readDigest (i : Fin 8) (s : State) : State :=
  match s.phase with
  | .done => returnData s.h[i] s
  | .error => returnData 0 s
  | .idle => returnData 0 (raiseError .digestRead (BitVec.ofNat 32 (0x20 + 4 * i.val)) s)
  | .absorb => returnData 0 (raiseError .digestRead (BitVec.ofNat 32 (0x20 + 4 * i.val)) s)

end Sys2Proof.Machine
end

