-- ==== Sys2Proof/Machine/Construct.lean ====
section
/-! DEFINITION. The meanings of INIT, INIT_KEYED and KEYWORD (40_construct.md). -/

namespace Sys2Proof.Machine

/-- INIT (R104): its reserved bits are checked by the decoder, then NN. -/
def execInit (nn : Byte) (s : State) : Result :=
  unlessError s fun s =>
    if legalDigestSize nn then .next (initContext nn 0 s)
    else .next (raiseError .badDigestSize (encode (.init nn)) s)

/-- The INIT_KEYED header (R105): NN is checked before KK (R207). -/
def execInitKeyed (nn kk : Byte) (s : State) : Result :=
  unlessError s fun s =>
    if ¬ legalDigestSize nn then .next (raiseError .badDigestSize (encode (.initKeyed nn kk)) s)
    else if ¬ legalKeyLen kk then .next (raiseError .badKeyLen (encode (.initKeyed nn kk)) s)
    else .next (startReceive .key (kk.setWidth 24) (initContext nn kk s))

/-- A key payload word (R106). -/
def execKeyword (w : Word) (s : State) : Result :=
  unlessError s fun s =>
    .next (closeKeyBlock (takePayload (appendBytes (payloadBytes s.rxLeft.toNat w) s)))

end Sys2Proof.Machine
end

