-- ==== Sys2Proof/Machine/Finalize.lean ====
section
/-! DEFINITION. The meaning of FINALIZE (42_finalize.md). -/

namespace Sys2Proof.Machine

/-- FINALIZE (R150): its reserved bits are checked by the decoder, then the phase; "finalize always succeeds" (R158). -/
def execFinalize (s : State) : Result :=
  unlessError s fun s =>
    if s.phase ≠ .absorb then .next (raiseError .sequence (encode .finalize) s)
    else .next (finishHash s)

end Sys2Proof.Machine
end

