-- ==== Sys2Proof/Machine/Update.lean ====
section
/-! DEFINITION. The meanings of UPDATE and DATAWORD (41_update.md). -/

namespace Sys2Proof.Machine

/-- The UPDATE header (R131): SEQUENCE outside ABSORB, and no change of state when LEN is 0. -/
def execUpdate (len : BitVec 24) (s : State) : Result :=
  unlessError s fun s =>
    if s.phase ≠ .absorb then .next (raiseError .sequence (encode (.update len)) s)
    else if len = 0 then .next s
    else .next (startReceive .data len s)

/-- A data payload word (R132). -/
def execDataword (w : Word) (s : State) : Result :=
  unlessError s fun s =>
    .next (takePayload (updateBytes (payloadBytes s.rxLeft.toNat w) s))

end Sys2Proof.Machine
end

