-- ==== Sys2Proof/Machine/Dispatch.lean ====
section
/-! DEFINITION. One arm per constructor of Instr. -/

namespace Sys2Proof.Machine

def exec (i : Instr) (s : State) : Host.Outcome State Fault Refusal :=
  match i with
  | .init nn => Sys2Proof.Machine.execInit nn s
  | .initKeyed nn kk => Sys2Proof.Machine.execInitKeyed nn kk s
  | .keyword w => Sys2Proof.Machine.execKeyword w s
  | .update len => Sys2Proof.Machine.execUpdate len s
  | .dataword w => Sys2Proof.Machine.execDataword w s
  | .finalize => Sys2Proof.Machine.execFinalize s

end Sys2Proof.Machine
end

