-- ==== Sys2Proof/Machine/Bus.lean ====
section
/-! DEFINITION. The register window (20_memory.md): CMD writes through the command sequencer, register reads, refused
accesses, and the input a step performs. -/

namespace Sys2Proof.Machine

/-- A write to CMD, read from the state alone (R70): ignored in ERROR, else a payload word while `rx_left` is not 0, else a
header; a header that spells no command raises ILLEGAL (R202). -/
def cmdWrite (w : Word) (s : State) : Result :=
  if s.phase = .error then .next s
  else match wordKind s with
    | none => .refused .noPendingCommand
    | some k =>
      match decodeWord k w with
      | .ok i => exec i s
      | .error _ => .next (raiseError .illegal w s)

/-- Why an access has no meaning, if it has none (R52, R65). -/
def accessProblem (size : AccessSize) (off : Nat) : Option Refusal :=
  if size ≠ .word then some .subWordAccess
  else if off % 4 ≠ 0 then some .misalignedAccess
  else if Config.windowBytes ≤ off then some .outsideWindow
  else none

/-- `BusWrite(off, w)` (R51, R54): CMD is at 0x00, every other offset ignores writes. -/
def busWrite (size : AccessSize) (off : Nat) (w : Word) (s : State) : Result :=
  match accessProblem size off with
  | some r => .refused r
  | none => if off = 0x00 then cmdWrite w s else .next s

/-- The register at a legal offset is read (R51): STATUS, ERRWORD, DIGESTi, and 0 from CMD (R32) and the reserved offsets
(R53). -/
def readRegister (off : Nat) (s : State) : State :=
  if off = 0x04 then returnData s.statusWord s
  else if off = 0x08 then returnData s.errword s
  else if hd : 0x20 ≤ off ∧ off < 0x40 then readDigest ⟨(off - 0x20) / 4, by omega⟩ s
  else returnData 0 s

/-- `BusRead(off)` (R51). -/
def busRead (size : AccessSize) (off : Nat) (s : State) : Result :=
  match accessProblem size off with
  | some r => .refused r
  | none => .next (readRegister off s)

/-- One input is performed whole before the next (R60). -/
def perform (i : Input) (s : State) : Result :=
  match i with
  | .write size off w => busWrite size off w s
  | .read size off => busRead size off s
  | .reset => .next (applyReset s)

/-- The state in which an input is performed: `rest` is still to come, and what the access before it returned is gone. -/
def dropInput (rest : List Input) (s : State) : State := { s with pending := rest, readData := none }

/-- The next input of the host's stream, and the state it is performed in. -/
def takeInput (s : State) : Option (Input × State) :=
  match s.pending with
  | [] => none
  | i :: rest => some (i, dropInput rest s)

/-- A CMD write in front of the pending inputs. -/
def pushCmdWrite (w : Word) (s : State) : State :=
  { s with pending := .write .word 0x00 w :: s.pending }

/-- The host writes these words to CMD, one after the other. -/
def cmdWrites : List Word → State → Result
  | [], s => .next s
  | w :: ws, s =>
    match cmdWrite w s with
    | .next s' => cmdWrites ws s'
    | .fault r => .fault r
    | .refused r => .refused r

end Sys2Proof.Machine
end

