-- ==== Sys2Proof/Machine/Step.lean ====
section
/-! DEFINITION. One step: the core performs the next input of its host (R60, R237), or waits for one (R232). -/

namespace Sys2Proof.Machine

/-- One step. With no input pending the core waits, and nothing changes (assumption 2). -/
def step (s : State) : Host.Outcome State Fault Refusal :=
  match takeInput s with
  | none => .next s
  | some (i, s') => perform i s'

/-- The host's probe: the core fetches no instruction (R63), so an instruction word stands where the next step takes it
when it is the host's next write to CMD (assumption 1). -/
def State.withFetchWord (s : State) (_nbits w : Nat) : State := pushCmdWrite (BitVec.ofNat 32 w) s

end Sys2Proof.Machine
end

