-- ==== Sys2Proof/Machine/Assembler.lean ====
section
/-! DEFINITION. The assembler notation of R81 and the pseudo-instructions of R82, from the text of a line to the inputs the
host issues. No meaning calls it. -/

namespace Sys2Proof.Machine

/-- The registers `rd` names (R81). -/
inductive Reg where
  | cmd
  | status
  | errword
  | digest (i : Fin 8)
deriving DecidableEq, Repr

/-- The offset of a register (R51). -/
def Reg.offset : Reg → Nat
  | .cmd => 0x00
  | .status => 0x04
  | .errword => 0x08
  | .digest i => 0x20 + 4 * i.val

/-- One line of a program (R81); the last five are the pseudo-instructions of R82. -/
inductive AsmLine where
  | init (nn : Byte)
  | initk (nn kk : Byte)
  | update (len : BitVec 24)
  | finalize
  | bytes (bs : List Byte)
  | word (w : Word)
  | rd (r : Reg)
  | reset
  | initkKey (nn : Byte) (key : List Byte)
  | updateBytes (bs : List Byte)
  | updateStr (text : List Char)
  | rdDigest
  | hash (nn : Byte) (bs : List Byte)
deriving DecidableEq, Repr

/-- The host's write of one word to CMD. -/
def cmdInput (w : Word) : Input := .write .word 0x00 w

/-- The host's read of a register. -/
def readInput (r : Reg) : Input := .read .word r.offset

/-- A message cut into pieces of at most 2^24 - 1 bytes, in order; at least one piece (R82; assumption 17). -/
def updateChunks : Nat → List Byte → List (List Byte)
  | 0, bs => [bs]
  | turns + 1, bs =>
    if bs.length ≤ Config.maxUpdate then [bs]
    else bs.take Config.maxUpdate :: updateChunks turns (bs.drop Config.maxUpdate)

/-- The CMD words of `update L` followed by `.bytes` for one piece. -/
def updateWords (bs : List Byte) : List Word :=
  encode (.update (BitVec.ofNat 24 bs.length)) :: packWords bs

/-- The CMD words of `update.bytes` (R82). -/
def updateBytesWords (bs : List Byte) : List Word := (updateChunks bs.length bs).flatMap updateWords

/-- The CMD words of `initk.key` (R82), for a key whose length the KK field can hold. -/
def initKeyWords (nn : Byte) (key : List Byte) : List Word :=
  encode (.initKeyed nn (BitVec.ofNat 8 key.length)) :: packWords key

/-- The eight reads of `rd.digest` (R82). -/
def digestReads : List Input := (List.finRange 8).map fun i => readInput (.digest i)

/-- The CMD words of a whole hash: INIT or INIT_KEYED with its key, the message, FINALIZE (R82, R233). -/
def hashCommand (nn : Byte) (key msg : List Byte) : List Word :=
  (if key = [] then [encode (.init nn)] else initKeyWords nn key) ++ updateBytesWords msg ++ [encode .finalize]

/-- The inputs one line stands for; `none` when a key is too long for the KK field to announce. -/
def AsmLine.inputs : AsmLine → Option (List Input)
  | .init nn => some [cmdInput (encode (.init nn))]
  | .initk nn kk => some [cmdInput (encode (.initKeyed nn kk))]
  | .update len => some [cmdInput (encode (.update len))]
  | .finalize => some [cmdInput (encode .finalize)]
  | .bytes bs => some ((packWords bs).map cmdInput)
  | .word w => some [cmdInput w]
  | .rd r => some [readInput r]
  | .reset => some [.reset]
  | .initkKey nn key => if key.length < 256 then some ((initKeyWords nn key).map cmdInput) else none
  | .updateBytes bs => some ((updateBytesWords bs).map cmdInput)
  | .updateStr text => some ((updateBytesWords (text.map fun c => BitVec.ofNat 8 c.toNat)).map cmdInput)
  | .rdDigest => some digestReads
  | .hash nn bs => some ((hashCommand nn [] bs).map cmdInput ++ digestReads)

/-- The inputs of a program, line by line. -/
def assemble : List AsmLine → Option (List Input)
  | [] => some []
  | l :: ls =>
    match l.inputs, assemble ls with
    | some a, some b => some (a ++ b)
    | _, _ => none

/-! ## The text of a line -/

/-- The text of a line without its comment: ";" starts one, but inside double quotes (code 34). -/
def dropComment : Bool → List Char → List Char
  | _, [] => []
  | quoted, c :: cs =>
    if c.toNat = 34 then c :: dropComment (!quoted) cs
    else if c = ';' && !quoted then []
    else c :: dropComment quoted cs

def isBlank (c : Char) : Bool := c = ' ' || c = '\t'

/-- A text without blanks at its ends. -/
def trimBlanks (cs : List Char) : List Char :=
  ((cs.dropWhile isBlank).reverse.dropWhile isBlank).reverse

/-- The operands of a line, cut at the commas. -/
def splitCommas : List Char → List (List Char)
  | [] => [[]]
  | c :: cs =>
    if c = ',' then [] :: splitCommas cs
    else match splitCommas cs with
      | [] => [[c]]
      | x :: xs => (c :: x) :: xs

/-- The value of a digit in a base up to 16. -/
def digitValue (base : Nat) (c : Char) : Option Nat :=
  let n := c.toNat
  let v := if 48 ≤ n ∧ n ≤ 57 then n - 48 else if 97 ≤ n ∧ n ≤ 102 then n - 87
    else if 65 ≤ n ∧ n ≤ 70 then n - 55 else 16
  if v < base then some v else none

def readDigits (base : Nat) : List Char → Nat → Option Nat
  | [], acc => some acc
  | c :: cs, acc =>
    match digitValue base c with
    | some d => readDigits base cs (base * acc + d)
    | none => none

/-- "Numbers are decimal or 0x hexadecimal" (R81). -/
def readNumber : List Char → Option Nat
  | [] => none
  | '0' :: 'x' :: c :: cs => readDigits 16 (c :: cs) 0
  | c :: cs => readDigits 10 (c :: cs) 0

/-- A number that fits in `width` bits. -/
def readField (width : Nat) (cs : List Char) : Option (BitVec width) :=
  match readNumber (trimBlanks cs) with
  | some n => if n < 2 ^ width then some (BitVec.ofNat width n) else none
  | none => none

def readBytes : List (List Char) → Option (List Byte)
  | [] => some []
  | x :: xs =>
    match readField 8 x, readBytes xs with
    | some b, some bs => some (b :: bs)
    | _, _ => none

/-- A list of bytes that may be empty. -/
def readByteList (cs : List Char) : Option (List Byte) :=
  if cs = [] then some [] else readBytes (splitCommas cs)

/-- The text between double quotes; an update string is ASCII (R82). -/
def readQuoted : List Char → Option (List Char)
  | [] => none
  | q :: cs =>
    match cs.reverse with
    | [] => none
    | q' :: body =>
      if q.toNat = 34 ∧ q'.toNat = 34 ∧ body.all (fun c => decide (c.toNat < 128)) then some body.reverse else none

def readReg (cs : List Char) : Option Reg :=
  if cs = ['C', 'M', 'D'] then some .cmd
  else if cs = ['S', 'T', 'A', 'T', 'U', 'S'] then some .status
  else if cs = ['E', 'R', 'R', 'W', 'O', 'R', 'D'] then some .errword
  else match cs with
    | ['D', 'I', 'G', 'E', 'S', 'T', d] =>
      match digitValue 8 d with
      | some n => some (.digest (Fin.ofNat 8 n))
      | none => none
    | _ => none

/-- A line from its mnemonic and the text of its operands. -/
def readOperation (name rest : List Char) : Option AsmLine :=
  if name = "init".toList then (readField 8 rest).map .init
  else if name = "initk".toList then
    match splitCommas rest with
    | [a, b] => match readField 8 a, readField 8 b with
      | some nn, some kk => some (.initk nn kk)
      | _, _ => none
    | _ => none
  else if name = "update".toList then (readField 24 rest).map .update
  else if name = "finalize".toList then (if rest = [] then some .finalize else none)
  else if name = ".bytes".toList then (readByteList rest).map .bytes
  else if name = ".word".toList then (readField 32 rest).map .word
  else if name = "rd".toList then (readReg rest).map .rd
  else if name = ".reset".toList then (if rest = [] then some .reset else none)
  else if name = "initk.key".toList then
    match readBytes (splitCommas rest) with
    | some (nn :: key) => some (.initkKey nn key)
    | _ => none
  else if name = "update.bytes".toList then (readByteList rest).map .updateBytes
  else if name = "update.str".toList then (readQuoted rest).map .updateStr
  else if name = "rd.digest".toList then (if rest = [] then some .rdDigest else none)
  else if name = "hash".toList then
    match readBytes (splitCommas rest) with
    | some (nn :: bs) => some (.hash nn bs)
    | _ => none
  else none

/-- One line of text: the outer `none` is a line the syntax of R81 and R82 does not have, `some none` an empty line. -/
def readLine (text : List Char) : Option (Option AsmLine) :=
  let body := trimBlanks (dropComment false text)
  if body = [] then some none
  else
    (readOperation (body.takeWhile fun c => !isBlank c) (trimBlanks (body.dropWhile fun c => !isBlank c))).map some

end Sys2Proof.Machine
end

