-- ==== Sys2Proof/Machine/Reference.lean ====
section
/-! DEFINITION. The hash of a whole virtual message stream, block by block, with no buffer and no commands: what the
command stream is claimed to compute (R138, R155, R156). No meaning calls it. -/

namespace Sys2Proof.Machine

/-- The virtual message stream of R12: "the key zero-padded to 64 bytes, followed by all UPDATE payload bytes" when there
is a key, else only the payload bytes. -/
def virtualStream (key msg : List Byte) : List Byte :=
  if key = [] then msg else key ++ List.replicate (64 - key.length) 0 ++ msg

/-- The first 64 bytes of a sequence, zero-filled, as a block (R150 step 4). -/
@[irreducible] def blockOf (data : List Byte) : Vector Byte 64 := Vector.ofFn fun i => data.getD i.val 0

/-- Word `i` of the byte count `n`, low word first (R22); counts wrap at 2^64 (R135). -/
def countWord (n i : Nat) : Word := BitVec.ofNat 32 (n / 2 ^ (32 * i))

/-- One compression that is not the last, when `n` bytes are counted with it (R138). -/
def plainBlock (h : Vector Word 8) (n : Nat) (data : List Byte) : Vector Word 8 :=
  compress h (countWord n 0) (countWord n 1) 0 0 (blockOf data)

/-- The one compression with f[0] set, when `n` bytes are counted in all (R155). -/
def lastBlock (h : Vector Word 8) (n : Nat) (data : List Byte) : Vector Word 8 :=
  compress h (countWord n 0) (countWord n 1) 0xFFFFFFFF 0 (blockOf data)

/-- `blocks` plain compressions from the front of `data`, when `n` bytes were counted before. -/
def chainBlocks : Nat → Vector Word 8 → Nat → List Byte → Vector Word 8
  | 0, h, _, _ => h
  | blocks + 1, h, n, data => chainBlocks blocks (plainBlock h (n + 64) data) (n + 64) (data.drop 64)

/-- How many compressions of a stream of `n` bytes are not the last: all but one of the totals of R156. -/
def plainBlocks (n : Nat) : Nat := (n - 1) / 64

/-- The seed of R102 for digest size `nn` and key length `kk`. -/
def seedChain (nn kk : Byte) : Vector Word 8 := Vector.ofFn fun i => iv[i] ^^^ paramWord nn kk i

/-- The chain value after the last compression of the stream `data`. -/
def hashStream (h : Vector Word 8) (data : List Byte) : Vector Word 8 :=
  lastBlock (chainBlocks (plainBlocks data.length) h 0 data) data.length
    (data.drop (64 * plainBlocks data.length))

/-- The eight digest words of `msg` under `key` (empty for none) with digest size `nn`. -/
def hashWords (nn : Byte) (key msg : List Byte) : Vector Word 8 :=
  hashStream (seedChain nn (BitVec.ofNat 8 key.length)) (virtualStream key msg)

end Sys2Proof.Machine
end

