-- ==== Sys2Proof/Machine/System.lean ====
section
/-! DEFINITION. A platform with several cores (R39, R65, R214): each instance has its own window and its own state. -/

namespace Sys2Proof.Machine

/-- One instance: CORE_BASE, the platform's address of its window (R65), and the core behind it. -/
structure Window where
  base : Nat
  core : State
deriving DecidableEq, Repr

/-- Whether an address is one of the window's 64 bytes. -/
def Window.holds (x : Window) (addr : Nat) : Bool :=
  decide (x.base ≤ addr) && decide (addr < x.base + Config.windowBytes)

/-- N_INSTANCES is at least 1 (R6), every base is 64-byte aligned, and the windows are separate (R65). -/
def basesWf (bases : List Nat) : Bool :=
  decide (bases ≠ []) && bases.all (fun b => decide (b % Config.windowBytes = 0)) && decide bases.Nodup

/-- The same of a platform's windows, whatever their cores hold. -/
def windowsWf (xs : List Window) : Bool := basesWf (xs.map Window.base)

/-- The platform at its start, one instance at each base: "Each starts in reset state" (R214). -/
def platformStart (bases : List Nat) : List Window := bases.map fun b => { base := b, core := State.reset }

/-- What the outside world does to the platform's bus: accesses at system addresses, and the reset of the instance at a
base. -/
inductive SystemInput where
  | write (size : AccessSize) (addr : Nat) (w : Word)
  | read (size : AccessSize) (addr : Nat)
  | reset (base : Nat)
deriving DecidableEq, Repr

/-- The address an input is about. -/
def SystemInput.addr : SystemInput → Nat
  | .write _ a _ => a
  | .read _ a => a
  | .reset a => a

/-- The same input as the core behind a window at `base` sees it. -/
def SystemInput.atCore (base : Nat) : SystemInput → Input
  | .write size a w => .write size (a - base) w
  | .read size a => .read size (a - base)
  | .reset _ => .reset

/-- The instance whose window holds the address performs the input; no other instance takes part (R214).
An address in no window is the platform's choice (R65). -/
def systemPerform (i : SystemInput) : List Window → Host.Outcome (List Window) Fault Refusal
  | [] => .refused .outsideWindow
  | x :: xs =>
    if x.holds i.addr then
      match perform (i.atCore x.base) { x.core with readData := none } with
      | .next c => .next ({ x with core := c } :: xs)
      | .fault r => .fault r
      | .refused r => .refused r
    else
      match systemPerform i xs with
      | .next ys => .next (x :: ys)
      | .fault r => .fault r
      | .refused r => .refused r

/-- The inputs of a run, one after the other (R60). -/
def systemRun : List SystemInput → List Window → Host.Outcome (List Window) Fault Refusal
  | [], xs => .next xs
  | i :: is, xs =>
    match systemPerform i xs with
    | .next ys => systemRun is ys
    | .fault r => .fault r
    | .refused r => .refused r

/-- A run of the platform: every one begins with every instance in reset state (R214, R231). -/
def platformRun (bases : List Nat) (inputs : List SystemInput) : Host.Outcome (List Window) Fault Refusal :=
  systemRun inputs (platformStart bases)

end Sys2Proof.Machine
end

