-- ==== Sys2Proof/Safety.lean ====
section
/-! DEFINITION. What statements about runs say of a state: no recorded error, the invariant, the ten elements of R20, and
what the host can observe. -/

namespace Sys2Proof.Machine

/-- "every claim about a command stream takes phase != ERROR at the end as a premise" (R209). -/
abbrev noError (s : State) : Prop := s.phase ≠ .error

/-- The values of the reset table (R37). -/
structure ResetTable (s : State) : Prop where
  h : s.h = Vector.replicate 8 0
  t0 : s.t0 = 0
  t1 : s.t1 = 0
  f0 : s.f0 = 0
  f1 : s.f1 = 0
  buf : s.buf = Vector.replicate 128 0
  buflen : s.buflen = 0
  phase : s.phase = .idle
  errcode : s.errcode = .none
  errword : s.errword = 0
  rxOp : s.rxOp = .none
  rxLeft : s.rxLeft = 0
  status : s.statusWord = 0

/-- The check of R207 a header word fails first in a phase, from the bits of the word alone; none if it passes. -/
def headerError (phase : Phase) (w : Word) : Option ErrCode :=
  let op := (w.extractLsb' 0 8).toNat
  let nn := (w.extractLsb' 8 8).toNat
  let kk := (w.extractLsb' 16 8).toNat
  if op = 0 ∨ 5 ≤ op then some .illegal
  else if (op = 1 ∧ w.extractLsb' 16 16 ≠ 0) ∨ (op = 2 ∧ w.extractLsb' 24 8 ≠ 0)
      ∨ (op = 4 ∧ w.extractLsb' 8 24 ≠ 0) then some .illegal
  else if (op = 3 ∨ op = 4) ∧ phase ≠ .absorb then some .sequence
  else if (op = 1 ∨ op = 2) ∧ (nn < 1 ∨ 32 < nn) then some .badDigestSize
  else if op = 2 ∧ (kk < 1 ∨ 32 < kk) then some .badKeyLen
  else none

/-- The words of the 64-bit count `T + n` (R135). -/
def countLow (s : State) (n : Nat) : Word := BitVec.ofNat 32 ((s.t0.toNat + 2 ^ 32 * s.t1.toNat + n) % 2 ^ 64)
def countHigh (s : State) (n : Nat) : Word :=
  BitVec.ofNat 32 ((s.t0.toNat + 2 ^ 32 * s.t1.toNat + n) % 2 ^ 64 / 2 ^ 32)

/-- What holds between any two accesses (R22 to R29): the bounds of the buffer count (R25), f as the phase says (R23), the
receiver open only in ABSORB (R26), the error record empty outside ERROR (R28), the counter a whole number of blocks in
ABSORB with a tail left in the buffer (R26 (b)), and the zero padding during key reception (R24). -/
structure Inv (s : State) : Prop where
  buflen_le : s.buflen ≤ 128
  rx_closed_iff : s.rxOp = .none ↔ s.rxLeft = 0
  rx_only_absorb : s.rxOp ≠ .none → s.phase = .absorb
  err_recorded_iff : s.errcode = .none ↔ s.phase ≠ .error
  errword_clear : s.phase ≠ .error → s.errword = 0
  f1_zero : s.f1 = 0
  f0_open : s.phase = .idle ∨ s.phase = .absorb → s.f0 = 0
  f0_done : s.phase = .done → s.f0 = 0xFFFFFFFF
  f0_legal : s.f0 = 0 ∨ s.f0 = 0xFFFFFFFF
  buflen_done : s.phase = .done → s.buflen ≤ 64
  count_done : s.phase = .done → (byteCount s).toNat % 64 = s.buflen % 64
  count_absorb : s.phase = .absorb → (byteCount s).toNat % 64 = 0
  tail_kept : s.phase = .absorb → byteCount s = 0 ∨ 65 ≤ s.buflen
  key_room : s.rxOp = .key → s.buflen + s.rxLeft.toNat ≤ 32
  key_padding : s.rxOp = .key → ∀ j : Fin 128, s.buflen ≤ j.val → j.val < 64 → s.buf[j] = 0
  key_count : s.rxOp = .key → byteCount s = 0

/-- What holds of a platform between any two accesses: separate aligned windows (R65), and every core as `Inv` says. -/
structure PlatformInv (xs : List Window) : Prop where
  windows : windowsWf xs = true
  cores : ∀ x ∈ xs, Inv x.core

/-- The ten elements of R20 are the same in two states. -/
structure SameCore (a b : State) : Prop where
  h : a.h = b.h
  t0 : a.t0 = b.t0
  t1 : a.t1 = b.t1
  f0 : a.f0 = b.f0
  f1 : a.f1 = b.f1
  buf : a.buf = b.buf
  buflen : a.buflen = b.buflen
  phase : a.phase = b.phase
  errcode : a.errcode = b.errcode
  errword : a.errword = b.errword
  rxOp : a.rxOp = b.rxOp
  rxLeft : a.rxLeft = b.rxLeft

/-- Two states no host can tell apart, now or later (R24, R37, R208): the same input stream, last answer, phase, error
record and receiver; while a context is open the same chain, counter, flags and valid bytes, with the key block's padding
during key reception; in DONE the same chain. -/
structure Alike (a b : State) : Prop where
  pending : a.pending = b.pending
  readData : a.readData = b.readData
  phase : a.phase = b.phase
  errcode : a.errcode = b.errcode
  errword : a.errword = b.errword
  rxOp : a.rxOp = b.rxOp
  rxLeft : a.rxLeft = b.rxLeft
  chain : a.phase = .absorb ∨ a.phase = .done → a.h = b.h
  counter : a.phase = .absorb → a.t0 = b.t0 ∧ a.t1 = b.t1
  flags : a.phase = .absorb → a.f0 = b.f0 ∧ a.f1 = b.f1
  buflen : a.phase = .absorb → a.buflen = b.buflen
  valid : a.phase = .absorb → ∀ j : Fin 128, j.val < a.buflen → a.buf[j] = b.buf[j]
  keyBlock : a.phase = .absorb → a.rxOp = .key → ∀ j : Fin 128, j.val < 64 → a.buf[j] = b.buf[j]

/-- Two outcomes that agree: next states no host can tell apart, or the same stop. -/
def alikeOutcomes : Result → Result → Prop
  | .next a, .next b => Alike a b
  | .fault r, .fault r' => r = r'
  | .refused r, .refused r' => r = r'
  | _, _ => False

end Sys2Proof.Machine
end

