-- ==== Sys2Proof/Certificates/Slice0/Obligations.lean ====
section
/-! DEFINITION. The statements for the provers. -/

open Sys2Proof Sys2Proof.Machine

/-! ## Reset, waiting, and the next input -/

/-- R37, R230: reset, from every state and whatever is pending, gives every element the value of the table, and
State.reset has those values. -/
def Obligations.ResetGivesTheTable : Prop :=
  ResetTable State.reset ∧
  ∀ (s : State) (rest : List Input), s.pending = .reset :: rest →
    ∃ t, step s = .next t ∧ ResetTable t ∧ t.pending = rest

/-- R232 and the model's own convention (assumption 2): with no input the core waits, unchanged. -/
def Obligations.CoreWaitsWithNoInput : Prop :=
  ∀ s : State, s.pending = [] → step s = .next s

/-- R60 and the model's own input list (assumption 1): a step performs the host's next input whole. -/
def Obligations.StepPerformsTheNextInput : Prop :=
  ∀ (s : State) (rest : List Input),
    (∀ w, s.pending = .write .word 0x00 w :: rest → step s = cmdWrite w { s with pending := rest, readData := none }) ∧
    (∀ size off w, s.pending = .write size off w :: rest →
      step s = busWrite size off w { s with pending := rest, readData := none }) ∧
    (∀ size off, s.pending = .read size off :: rest →
      step s = busRead size off { s with pending := rest, readData := none })

/-- A step runs the instruction that the next CMD word decodes to in the context R70 gives it. -/
def Obligations.StepRunsTheDecodedInstruction : Prop :=
  ∀ (s : State) (w : Word) (rest : List Input) (i : Instr),
    s.pending = .write .word 0x00 w :: rest → s.phase ≠ .error →
    (s.rxLeft = 0 ∧ decodeWord .header w = .ok i ∨
      s.rxLeft ≠ 0 ∧ s.rxOp = .key ∧ decodeWord .key w = .ok i ∨
      s.rxLeft ≠ 0 ∧ s.rxOp = .data ∧ decodeWord .data w = .ok i) →
    step s = exec i { s with pending := rest, readData := none }

/-- R70: the three ways a CMD write is read, from the state alone. -/
def Obligations.CmdWordIsReadFromTheState : Prop :=
  ∀ (w : Word) (s : State),
    (s.phase = .error → cmdWrite w s = .next s) ∧
    (s.phase ≠ .error → s.rxLeft ≠ 0 →
      (s.rxOp = .key → cmdWrite w s = exec (.keyword w) s) ∧ (s.rxOp = .data → cmdWrite w s = exec (.dataword w) s)) ∧
    (s.phase ≠ .error → s.rxLeft = 0 →
      (∀ i, decodeHeader w = .ok i → cmdWrite w s = exec i s) ∧
      (∀ r, decodeHeader w = .error r → cmdWrite w s = .next (raiseError .illegal w s)))

/-! ## Encoding -/

/-- Every instruction's word decodes to it, in its own context, with every operand at every value. -/
def Obligations.DecodeAfterEncode : Prop :=
  ∀ i : Instr, decodeWord i.kind (encode i) = .ok i

/-- The other direction: a word that decodes is the word its instruction is spelled by. -/
def Obligations.EncodeAfterDecode : Prop :=
  ∀ (k : WordKind) (w : Word) (i : Instr), decodeWord k w = .ok i → i.kind = k ∧ encode i = w

/-- R79: the match and mask pairs, with the operand fields at their bits, and ILLEGAL for every other header. -/
def Obligations.HeadersMatchTheOpcodeMap : Prop :=
  ∀ w : Word,
    (w &&& 0xFFFF00FF = 0x00000001 ↔ decodeHeader w = .ok (.init (w.extractLsb' 8 8))) ∧
    (w &&& 0xFF0000FF = 0x00000002 ↔ decodeHeader w = .ok (.initKeyed (w.extractLsb' 8 8) (w.extractLsb' 16 8))) ∧
    (w &&& 0x000000FF = 0x00000003 ↔ decodeHeader w = .ok (.update (w.extractLsb' 8 24))) ∧
    (w &&& 0xFFFFFFFF = 0x00000004 ↔ decodeHeader w = .ok .finalize) ∧
    (w &&& 0xFFFF00FF ≠ 0x00000001 → w &&& 0xFF0000FF ≠ 0x00000002 → w &&& 0x000000FF ≠ 0x00000003 →
      w &&& 0xFFFFFFFF ≠ 0x00000004 → ∀ s : State, s.phase ≠ .error → s.rxLeft = 0 →
      cmdWrite w s = .next (raiseError .illegal w s))

/-- R83: the words of the encoding examples, one by one. -/
def Obligations.WrittenOutWordsDecode : Prop :=
  decodeHeader 0x00002001 = .ok (.init 32) ∧ decodeHeader 0x00001001 = .ok (.init 16) ∧
  decodeHeader 0x00202002 = .ok (.initKeyed 32 32) ∧ decodeHeader 0x00012002 = .ok (.initKeyed 32 1) ∧
  decodeHeader 0x00000303 = .ok (.update 3) ∧ packWords [0x61, 0x62, 0x63] = [0x00636261] ∧
  decodeHeader 0x00000003 = .ok (.update 0) ∧ decodeHeader 0x00004103 = .ok (.update 65) ∧
  decodeHeader 0x00000004 = .ok .finalize

/-- R57: payload byte j is carried in word j / 4, lane j mod 4, and the lanes of a word are the bytes LE32 loads back. -/
def Obligations.PayloadPackingIsLittleEndian : Prop :=
  (∀ (bs : List Byte) (j : Nat), j < bs.length →
    (((packWords bs).getD (j / 4) 0) >>> (8 * (j % 4))).setWidth 8 = bs.getD j 0) ∧
  (∀ bs : List Byte, (packWords bs).length = (bs.length + 3) / 4) ∧
  (∀ w : Word, wordOfBytes (lane w 0) (lane w 1) (lane w 2) (lane w 3) = w)

/-- R82: each pseudo-instruction stands for the lines it expands to; a message LEN cannot announce is cut after its first
2^24 - 1 bytes, and the rest is cut in the same way (the greedy cut is the model's, assumption 17). -/
def Obligations.PseudoInstructionsExpand : Prop :=
  ∀ (nn : Byte) (key bs : List Byte),
    (key.length < 256 →
      (AsmLine.initkKey nn key).inputs = assemble [.initk nn (BitVec.ofNat 8 key.length), .bytes key]) ∧
    (bs.length < 2 ^ 24 →
      (AsmLine.updateBytes bs).inputs = assemble [.update (BitVec.ofNat 24 bs.length), .bytes bs]) ∧
    (2 ^ 24 ≤ bs.length →
      (AsmLine.updateBytes bs).inputs =
        assemble [.updateBytes (bs.take 16777215), .updateBytes (bs.drop 16777215)]) ∧
    (AsmLine.updateStr (bs.map fun b => Char.ofNat (b.toNat % 128))).inputs =
      (AsmLine.updateBytes (bs.map fun b => BitVec.ofNat 8 (b.toNat % 128))).inputs ∧
    AsmLine.rdDigest.inputs = assemble [.rd (.digest 0), .rd (.digest 1), .rd (.digest 2), .rd (.digest 3),
      .rd (.digest 4), .rd (.digest 5), .rd (.digest 6), .rd (.digest 7)] ∧
    (AsmLine.hash nn bs).inputs = assemble [.init nn, .updateBytes bs, .finalize, .rdDigest]

/-! ## Errors -/

/-- R207: the first failing check of a header word, and no other, is the one reported; a word that passes enters no
error. -/
def Obligations.HeaderChecksInPriorityOrder : Prop :=
  ∀ (w : Word) (s : State), s.phase ≠ .error → s.rxLeft = 0 →
    ∃ t, cmdWrite w s = .next t ∧
      match headerError s.phase w with
      | some c => t = { s with phase := .error, errcode := c, errword := w, rxOp := .none, rxLeft := 0 }
      | none => t.phase ≠ .error ∧ t.errcode = s.errcode ∧ t.errword = s.errword

/-- R202: exactly these header words raise ILLEGAL, and a payload word never does. -/
def Obligations.IllegalHeadersAreExactlyThese : Prop :=
  ∀ (w : Word) (s : State), s.phase ≠ .error → s.errcode = .none → s.rxOp ≠ .none ∨ s.rxLeft = 0 →
    ∃ t, cmdWrite w s = .next t ∧
      (t.errcode = .illegal ↔ s.rxLeft = 0 ∧
        ((w.extractLsb' 0 8).toNat = 0 ∨ 5 ≤ (w.extractLsb' 0 8).toNat ∨
          w.extractLsb' 0 8 = 1 ∧ w.extractLsb' 16 16 ≠ 0 ∨ w.extractLsb' 0 8 = 2 ∧ w.extractLsb' 24 8 ≠ 0 ∨
          w.extractLsb' 0 8 = 4 ∧ w.extractLsb' 8 24 ≠ 0))

/-- R203: both constructors report a digest size outside 1..32, with their header word. -/
def Obligations.BadDigestSizeIsReported : Prop :=
  ∀ (nn kk : Byte) (s : State), s.phase ≠ .error → (nn.toNat < 1 ∨ 32 < nn.toNat) →
    exec (.init nn) s = .next { s with
      phase := .error, errcode := .badDigestSize, errword := (0x01 : Word) ||| (nn.setWidth 32 <<< 8), rxOp := .none, rxLeft := 0 } ∧
    exec (.initKeyed nn kk) s = .next { s with
      phase := .error, errcode := .badDigestSize,
      errword := (0x02 : Word) ||| (nn.setWidth 32 <<< 8) ||| (kk.setWidth 32 <<< 16), rxOp := .none, rxLeft := 0 }

/-- R204: INIT_KEYED reports a key length outside 1..32 when the digest size is legal. -/
def Obligations.BadKeyLengthIsReported : Prop :=
  ∀ (nn kk : Byte) (s : State), s.phase ≠ .error → 1 ≤ nn.toNat → nn.toNat ≤ 32 →
    (kk.toNat < 1 ∨ 32 < kk.toNat) →
    exec (.initKeyed nn kk) s = .next { s with
      phase := .error, errcode := .badKeyLen,
      errword := (0x02 : Word) ||| (nn.setWidth 32 <<< 8) ||| (kk.setWidth 32 <<< 16), rxOp := .none, rxLeft := 0 }

/-- R205: UPDATE of any length and FINALIZE report SEQUENCE in IDLE and in DONE. -/
def Obligations.SequenceErrorsOutsideAbsorb : Prop :=
  ∀ (len : BitVec 24) (s : State), (s.phase = .idle ∨ s.phase = .done) →
    exec (.update len) s = .next { s with
      phase := .error, errcode := .sequence, errword := (0x03 : Word) ||| (len.setWidth 32 <<< 8), rxOp := .none, rxLeft := 0 } ∧
    exec .finalize s = .next { s with
      phase := .error, errcode := .sequence, errword := 0x04, rxOp := .none, rxLeft := 0 }

/-- R200: whichever step enters ERROR has no effect but the entry: a cause, the header word or the DIGEST offset recorded,
the receiver cleared, all hashing state kept. -/
def Obligations.ErrorEntryIsPrecise : Prop :=
  ∀ s t : State, step s = .next t → s.phase ≠ .error → t.phase = .error →
    t.errcode ≠ .none ∧ t.rxOp = .none ∧ t.rxLeft = 0 ∧ t.h = s.h ∧ t.t0 = s.t0 ∧ t.t1 = s.t1 ∧ t.f0 = s.f0 ∧
    t.f1 = s.f1 ∧ t.buf = s.buf ∧ t.buflen = s.buflen ∧ t.freeCtr = s.freeCtr ∧
    ((∃ w rest, s.pending = .write .word 0x00 w :: rest ∧ t.pending = rest ∧ t.errword = w ∧ t.errcode ≠ .digestRead) ∨
      ∃ off rest, s.pending = .read .word off :: rest ∧ t.pending = rest ∧ t.errword = BitVec.ofNat 32 off ∧
        t.errcode = .digestRead ∧ t.readData = some 0 ∧ 0x20 ≤ off ∧ off < 0x40)

/-- R208: in ERROR nothing but reset changes any element, CMD writes are ignored, DIGEST reads return 0, STATUS and ERRWORD
reads return the record, and the reserved offsets read 0. -/
def Obligations.ErrorPhaseIsSticky : Prop :=
  ∀ s : State, s.phase = .error →
    (∀ w, cmdWrite w s = .next s) ∧
    (∀ j, j < 8 → busRead .word (0x20 + 4 * j) s = .next { s with readData := some 0 }) ∧
    busRead .word 0x04 s = .next { s with readData := some s.statusWord } ∧
    busRead .word 0x08 s = .next { s with readData := some s.errword } ∧
    (∀ j, j < 5 → busRead .word (0x0C + 4 * j) s = .next { s with readData := some 0 }) ∧
    (∀ i rest t, s.pending = i :: rest → i ≠ .reset → step s = .next t → SameCore t s)

/-! ## The register window -/

/-- R33: the fields of STATUS, each read back from its bits, their values, the register's read and its ignored write, and
its reset value. -/
def Obligations.StatusFieldsAreInPlace : Prop :=
  (Phase.bits .idle = 0 ∧ Phase.bits .absorb = 1 ∧ Phase.bits .done = 2 ∧ Phase.bits .error = 3) ∧
  (ErrCode.bits .none = 0 ∧ ErrCode.bits .illegal = 1 ∧ ErrCode.bits .badDigestSize = 2 ∧
    ErrCode.bits .badKeyLen = 3 ∧ ErrCode.bits .sequence = 4 ∧ ErrCode.bits .digestRead = 5) ∧
  State.reset.statusWord = 0 ∧
  ∀ s : State,
    s.statusWord.extractLsb' 0 2 = s.phase.bits ∧ s.statusWord.extractLsb' 2 2 = 0 ∧
    s.statusWord.extractLsb' 4 4 = s.errcode.bits ∧ s.statusWord.extractLsb' 8 24 = s.rxLeft ∧
    busRead .word 0x04 s = .next { s with readData := some s.statusWord } ∧
    ∀ w, busWrite .word 0x04 w s = .next s

/-- R51: what a read of each register returns, with no side effect (R54), DIGEST apart; CMD reads 0 (R32). -/
def Obligations.RegisterReadsFollowTheMap : Prop :=
  ∀ s : State,
    busRead .word 0x00 s = .next { s with readData := some 0 } ∧
    busRead .word 0x04 s = .next { s with readData := some s.statusWord } ∧
    busRead .word 0x08 s = .next { s with readData := some s.errword }

/-- R53: the reserved offsets read 0 and ignore writes, in every phase. -/
def Obligations.ReservedOffsetsAreInert : Prop :=
  ∀ (s : State) (w : Word) (off : Nat), off ∈ [0x0C, 0x10, 0x14, 0x18, 0x1C] →
    busRead .word off s = .next { s with readData := some 0 } ∧ busWrite .word off w s = .next s

/-- R54: a word write at a legal offset other than CMD changes nothing. -/
def Obligations.WritesOutsideCmdAreIgnored : Prop :=
  ∀ (s : State) (w : Word) (off : Nat), off % 4 = 0 → 0 < off → off < 64 → busWrite .word off w s = .next s

/-- R52: an access that is no aligned 32-bit word is refused, whatever the state. -/
def Obligations.OtherAccessesAreRefused : Prop :=
  ∀ (s : State) (size : AccessSize) (off : Nat) (w : Word), (size ≠ .word ∨ off % 4 ≠ 0) →
    (∃ r, busRead size off s = .refused r) ∧ (∃ r, busWrite size off w s = .refused r)

/-- R152: a DIGEST read returns h[i] in DONE and 0 in ERROR, with no side effect, and raises DIGEST_READ with its offset
in IDLE and ABSORB (R206). -/
def Obligations.DigestReadsByPhase : Prop :=
  ∀ (s : State) (i : Fin 8),
    (s.phase = .done → busRead .word (0x20 + 4 * i.val) s = .next { s with readData := some s.h[i] }) ∧
    (s.phase = .error → busRead .word (0x20 + 4 * i.val) s = .next { s with readData := some 0 }) ∧
    (s.phase = .idle ∨ s.phase = .absorb →
      busRead .word (0x20 + 4 * i.val) s = .next { s with
        readData := some 0, phase := .error, errcode := .digestRead, errword := BitVec.ofNat 32 (0x20 + 4 * i.val),
        rxOp := .none, rxLeft := 0 })

/-- R10: from a state that meets the invariant, every aligned word access of the window, and reset, completes. -/
def Obligations.LegalAccessesComplete : Prop :=
  ∀ (s : State) (rest : List Input) (off : Nat) (w : Word), Inv s → off % 4 = 0 → off < 64 →
    (s.pending = .write .word off w :: rest → ∃ t, step s = .next t ∧ t.pending = rest) ∧
    (s.pending = .read .word off :: rest → ∃ t, step s = .next t ∧ t.pending = rest ∧ t.readData ≠ none) ∧
    (s.pending = .reset :: rest → ∃ t, step s = .next t ∧ t.pending = rest)

/-! ## Construction -/

/-- R101: the parameter words loaded from the block of R100. -/
def Obligations.ParameterWordsFromTheBlock : Prop :=
  ∀ nn kk : Byte,
    paramWord nn kk 0 = nn.setWidth 32 ||| (kk.setWidth 32 <<< 8) ||| (0x00010000 : Word) ||| (0x01000000 : Word) ∧
    ∀ i : Fin 8, i ≠ 0 → paramWord nn kk i = 0

/-- R102: what INIT and the INIT_KEYED header leave, element by element; the rest of the state is unchanged. -/
def Obligations.ConstructionSeedsTheContext : Prop :=
  ∀ (nn kk : Byte) (s : State), s.phase ≠ .error → 1 ≤ nn.toNat → nn.toNat ≤ 32 →
    exec (.init nn) s = .next { s with
      h := #v[(0x6A09E667 : Word) ^^^ ((0x01010000 : Word) ||| nn.setWidth 32), 0xBB67AE85, 0x3C6EF372, 0xA54FF53A,
              0x510E527F, 0x9B05688C, 0x1F83D9AB, 0x5BE0CD19],
      t0 := 0, t1 := 0, f0 := 0, f1 := 0, buflen := 0, buf := Vector.replicate 128 0, phase := .absorb } ∧
    (1 ≤ kk.toNat → kk.toNat ≤ 32 → exec (.initKeyed nn kk) s = .next { s with
      h := #v[(0x6A09E667 : Word) ^^^ ((0x01010000 : Word) ||| (kk.setWidth 32 <<< 8) ||| nn.setWidth 32), 0xBB67AE85, 0x3C6EF372,
              0xA54FF53A, 0x510E527F, 0x9B05688C, 0x1F83D9AB, 0x5BE0CD19],
      t0 := 0, t1 := 0, f0 := 0, f1 := 0, buflen := 0, buf := Vector.replicate 128 0, phase := .absorb,
      rxOp := .key, rxLeft := kk.setWidth 24 })

/-- R106: what a key word leaves: its bytes at the end of the key so far, and buflen 64 after the last; every other
element is unchanged. -/
def Obligations.KeyWordStoresItsBytes : Prop :=
  ∀ (w : Word) (s : State), s.phase ≠ .error →
    ∃ t, exec (.keyword w) s = .next t ∧
      t.rxLeft.toNat = s.rxLeft.toNat - min 4 s.rxLeft.toNat ∧
      (s.rxLeft.toNat ≤ 4 → t.buflen = 64 ∧ t.rxOp = .none) ∧
      (4 < s.rxLeft.toNat → t.buflen = s.buflen + 4 ∧ t.rxOp = s.rxOp) ∧
      (∀ j : Fin 128, t.buf[j] =
        if s.buflen ≤ j.val ∧ j.val < s.buflen + min 4 s.rxLeft.toNat then w.extractLsb' (8 * (j.val - s.buflen)) 8
        else s.buf[j]) ∧
      t.h = s.h ∧ t.t0 = s.t0 ∧ t.t1 = s.t1 ∧ t.f0 = s.f0 ∧ t.f1 = s.f1 ∧ t.phase = s.phase ∧
      t.errcode = s.errcode ∧ t.errword = s.errword ∧ t.pending = s.pending ∧ t.readData = s.readData ∧
      t.freeCtr = s.freeCtr

/-- R107: INIT_KEYED and its key words leave the state that feeding the zero-padded key block to a fresh context
leaves. -/
def Obligations.KeyReceptionEqualsUpdate : Prop :=
  ∀ (nn kk : Byte) (ws : List Word) (s : State), s.phase ≠ .error → s.rxLeft = 0 →
    1 ≤ nn.toNat → nn.toNat ≤ 32 → 1 ≤ kk.toNat → kk.toNat ≤ 32 → ws.length = (kk.toNat + 3) / 4 →
    cmdWrites (encode (.initKeyed nn kk) :: ws) s =
      .next (updateBytes ((ws.flatMap lanes).take kk.toNat ++ List.replicate (64 - kk.toNat) 0)
        (initContext nn kk { s with rxOp := .none }))

/-! ## Update -/

/-- R131: the UPDATE header opens the receiver, and does nothing for length 0. -/
def Obligations.UpdateHeaderOpensTheReceiver : Prop :=
  ∀ (len : BitVec 24) (s : State), s.phase = .absorb →
    exec (.update len) s = .next (if len = 0 then s else { s with rxOp := .data, rxLeft := len })

/-- The counter addition, carried and wrapped, and nothing else. Carry and wrap are what R135 marks as the spec's own
reading, a design choice (assumption 13). -/
def Obligations.CounterAdditionCarriesAndWraps : Prop :=
  ∀ (n : Nat) (s : State),
    incT n s = { s with t0 := countLow s n, t1 := countHigh s n }

/-- R134: AdvanceBlock, element by element; buf[64..127] after it is free. -/
def Obligations.AdvanceBlockConsumesTheFront : Prop :=
  ∀ s : State,
    (advanceBlock s).t0 = countLow s 64 ∧ (advanceBlock s).t1 = countHigh s 64 ∧
    (advanceBlock s).h = compress s.h (countLow s 64) (countHigh s 64) s.f0 s.f1 (Vector.ofFn fun i => s.buf[i.val]) ∧
    (∀ j : Fin 64, (advanceBlock s).buf[j.val] = s.buf[j.val + 64]) ∧
    (advanceBlock s).buflen = s.buflen - 64 ∧
    (advanceBlock s).f0 = s.f0 ∧ (advanceBlock s).f1 = s.f1 ∧ (advanceBlock s).phase = s.phase ∧
    (advanceBlock s).rxOp = s.rxOp ∧ (advanceBlock s).rxLeft = s.rxLeft ∧ (advanceBlock s).errcode = s.errcode ∧
    (advanceBlock s).errword = s.errword ∧ (advanceBlock s).pending = s.pending ∧
    (advanceBlock s).readData = s.readData ∧ (advanceBlock s).freeCtr = s.freeCtr + 1

/-- R132: a data word in both cases, room for its bytes and one compression, with all the rest unchanged. The buffer
contents past the valid bytes are not stated (R134). -/
def Obligations.DataWordFeedsItsBytes : Prop :=
  ∀ (w : Word) (s : State), s.phase ≠ .error → s.buflen ≤ 128 →
    ∃ t, exec (.dataword w) s = .next t ∧
      t.rxLeft.toNat = s.rxLeft.toNat - min 4 s.rxLeft.toNat ∧
      t.rxOp = (if s.rxLeft.toNat ≤ 4 then .none else s.rxOp) ∧
      t.f0 = s.f0 ∧ t.f1 = s.f1 ∧ t.phase = s.phase ∧ t.errcode = s.errcode ∧ t.errword = s.errword ∧
      t.pending = s.pending ∧ t.readData = s.readData ∧
      (s.buflen + min 4 s.rxLeft.toNat ≤ 128 →
        t.buflen = s.buflen + min 4 s.rxLeft.toNat ∧ t.h = s.h ∧ t.t0 = s.t0 ∧ t.t1 = s.t1 ∧ t.freeCtr = s.freeCtr ∧
        ∀ j : Fin 128, t.buf[j] =
          if s.buflen ≤ j.val ∧ j.val < t.buflen then w.extractLsb' (8 * (j.val - s.buflen)) 8 else s.buf[j]) ∧
      (128 < s.buflen + min 4 s.rxLeft.toNat →
        t.buflen = s.buflen + min 4 s.rxLeft.toNat - 64 ∧ t.t0 = countLow s 64 ∧ t.t1 = countHigh s 64 ∧
        t.h = compress s.h (countLow s 64) (countHigh s 64) s.f0 s.f1 (Vector.ofFn fun i => s.buf[i.val]) ∧
        t.freeCtr = s.freeCtr + 1 ∧
        (∀ j : Fin 64, t.buf[j.val] =
          if j.val + 64 < s.buflen then s.buf[j.val + 64] else w.extractLsb' (8 * (j.val + 64 - s.buflen)) 8) ∧
        ∀ j : Fin 128, 64 ≤ j.val → j.val < t.buflen →
          t.buf[j] = w.extractLsb' (8 * (j.val + 64 - s.buflen)) 8)

/-- R76: the lanes past min(4, rx_left) have no effect, and a payload word never raises an error. -/
def Obligations.UnusedLanesAreIgnored : Prop :=
  ∀ (w w' : Word) (s : State), s.phase ≠ .error →
    (∀ j, j < min 4 s.rxLeft.toNat → w.extractLsb' (8 * j) 8 = w'.extractLsb' (8 * j) 8) →
    exec (.keyword w) s = exec (.keyword w') s ∧ exec (.dataword w) s = exec (.dataword w') s ∧
    (∃ t, exec (.keyword w) s = .next t ∧ t.phase = s.phase ∧ t.errcode = s.errcode) ∧
    (∃ t, exec (.dataword w) s = .next t ∧ t.phase = s.phase ∧ t.errcode = s.errcode)

/-- Chunking invariance. R136 says it of h, t, f, buflen and the valid bytes; that it holds of the whole state, the bytes
past buflen and the count of shifts too, rests on how the model numbers its free values (assumption 4). -/
def Obligations.ChunkingInvariance : Prop :=
  ∀ (a b : List Byte) (s : State), s.buflen ≤ 128 →
    updateBytes b (updateBytes a s) = updateBytes (a ++ b) s

/-- UPDATE and its data words, word by word, do what one update of all LEN bytes does (R132, R136), in every element; for the
bytes past buflen and the count of shifts this rests on how the model numbers its free values (assumption 4). -/
def Obligations.DataWordsEqualOneUpdate : Prop :=
  ∀ (len : BitVec 24) (ws : List Word) (s : State), s.phase = .absorb → s.rxLeft = 0 → s.rxOp = .none →
    s.buflen ≤ 128 → ws.length = (len.toNat + 3) / 4 →
    cmdWrites (encode (.update len) :: ws) s = .next (updateBytes ((ws.flatMap lanes).take len.toNat) s)

/-- Buffer count, compressions and counter after N bytes into a fresh context (R137), with the chain value and the valid
bytes they leave (R130, R134); every AdvanceBlock of a full buffer leaves 64. The compressions are counted by the model's
own count of shifts, one each (assumption 4). -/
def Obligations.BufferOccupancyLaw : Prop :=
  (∀ (nn kk : Byte) (s : State) (data : List Byte),
    let t := updateBytes data (initContext nn kk s)
    let c := (data.length - 128 + 63) / 64
    (data.length ≤ 128 → t.buflen = data.length ∧ t.freeCtr = s.freeCtr) ∧
    (128 < data.length → t.buflen = data.length - 64 * c ∧ 65 ≤ t.buflen ∧ t.buflen ≤ 128 ∧
      t.freeCtr = s.freeCtr + c) ∧
    byteCount t = BitVec.ofNat 64 (64 * c) ∧
    t.h = chainBlocks c (seedChain nn kk) 0 data ∧
    ∀ j : Fin 128, j.val < t.buflen → t.buf[j] = data.getD (64 * c + j.val) 0) ∧
  ∀ s : State, s.buflen = 128 → (advanceBlock s).buflen = 64

/-! ## Finalize -/

/-- R150: FINALIZE in both cases, one compression or two, with all the rest unchanged; it always succeeds (R158). -/
def Obligations.FinalizeClosesTheHash : Prop :=
  ∀ s : State, s.phase = .absorb → s.buflen ≤ 128 →
    ∃ t, exec .finalize s = .next t ∧ t.phase = .done ∧ t.f0 = 0xFFFFFFFF ∧ t.f1 = s.f1 ∧
      t.t0 = countLow s s.buflen ∧ t.t1 = countHigh s s.buflen ∧
      t.rxOp = s.rxOp ∧ t.rxLeft = s.rxLeft ∧ t.errcode = s.errcode ∧ t.errword = s.errword ∧
      t.pending = s.pending ∧ t.readData = s.readData ∧
      (s.buflen ≤ 64 →
        t.buflen = s.buflen ∧ t.freeCtr = s.freeCtr ∧
        (∀ j : Fin 128, t.buf[j] = if s.buflen ≤ j.val ∧ j.val < 64 then 0 else s.buf[j]) ∧
        t.h = compress s.h (countLow s s.buflen) (countHigh s s.buflen) 0xFFFFFFFF s.f1
          (Vector.ofFn fun i => if i.val < s.buflen then s.buf[i.val] else 0)) ∧
      (64 < s.buflen →
        t.buflen = s.buflen - 64 ∧ t.freeCtr = s.freeCtr + 1 ∧
        (∀ j : Fin 64, t.buf[j.val] = if j.val < s.buflen - 64 then s.buf[j.val + 64] else 0) ∧
        t.h = compress
          (compress s.h (countLow s 64) (countHigh s 64) s.f0 s.f1 (Vector.ofFn fun i => s.buf[i.val]))
          (countLow s s.buflen) (countHigh s s.buflen) 0xFFFFFFFF s.f1
          (Vector.ofFn fun i => if i.val < s.buflen - 64 then s.buf[i.val + 64] else 0))

/-- R56: the digest bytes of a chain value. -/
def Obligations.DigestBytesAreLittleEndian : Prop :=
  ∀ h : Vector Word 8,
    (∀ k : Fin 32, digestByte h k = (h[k.val / 4] >>> (8 * (k.val % 4))).setWidth 8) ∧
    (digestBytes h).length = 32 ∧
    (∀ k : Fin 32, (digestBytes h).getD k.val 0 = digestByte h k) ∧
    ∀ len, hostDigest len h = (digestBytes h).take (min len 32)

/-- The whole command stream of one hash, unkeyed or keyed, from any state that waits for a header, ends in DONE with the
chain value of the block-by-block hash of the virtual stream, T the stream's length, and one compression less than the
total of R156 before the last, counted by the model's own count of shifts (assumption 4). -/
def Obligations.CommandStreamComputesTheHash : Prop :=
  ∀ (nn : Byte) (key msg : List Byte) (s : State), s.phase ≠ .error → s.rxLeft = 0 →
    1 ≤ nn.toNat → nn.toNat ≤ 32 → key.length ≤ 32 →
    ∃ t, cmdWrites (hashCommand nn key msg) s = .next t ∧ t.phase = .done ∧
      t.h = hashWords nn key msg ∧ t.f0 = 0xFFFFFFFF ∧ t.f1 = 0 ∧
      byteCount t = BitVec.ofNat 64 (virtualStream key msg).length ∧
      t.freeCtr = s.freeCtr + ((virtualStream key msg).length - 1) / 64 ∧
      t.errcode = s.errcode ∧ t.errword = s.errword

/-! ## Compression -/

/-- R172: rotr32 is the 32-bit right rotation, and rotating on by the rest gives the word back. -/
def Obligations.RotrIsTheRightRotation : Prop :=
  ∀ (x : Word) (n : Nat), 0 < n → n < 32 →
    rotr32 x n = x.rotateRight n ∧ rotr32 (rotr32 x n) (32 - n) = x

/-- R174: the four words G writes, as the eight steps give them, and its frame, for distinct indices. -/
def Obligations.MixGRunsTheEightSteps : Prop :=
  ∀ (v : Vector Word 16) (a b c d : Fin 16) (x y : Word), [a, b, c, d].Nodup →
    let a1 := v[a] + v[b] + x
    let d1 := (v[d] ^^^ a1).rotateRight 16
    let c1 := v[c] + d1
    let b1 := (v[b] ^^^ c1).rotateRight 12
    let a2 := a1 + b1 + y
    let d2 := (d1 ^^^ a2).rotateRight 8
    let c2 := c1 + d2
    let b2 := (b1 ^^^ c2).rotateRight 7
    (mixG v a b c d x y)[a] = a2 ∧ (mixG v a b c d x y)[b] = b2 ∧ (mixG v a b c d x y)[c] = c2 ∧
    (mixG v a b c d x y)[d] = d2 ∧ ∀ j : Fin 16, j ∉ [a, b, c, d] → (mixG v a b c d x y)[j] = v[j]

/-- R177: two invocations of G on disjoint words may run in either order, as the four columns, and the four diagonals, of
a round may. -/
def Obligations.DisjointMixesCommute : Prop :=
  ∀ (v : Vector Word 16) (a b c d a' b' c' d' : Fin 16) (x y x' y' : Word), [a, b, c, d, a', b', c', d'].Nodup →
    mixG (mixG v a b c d x y) a' b' c' d' x' y' = mixG (mixG v a' b' c' d' x' y') a b c d x y

/-- R171: ten distinct rows, each a permutation of 0..15. -/
def Obligations.SigmaRowsArePermutations : Prop :=
  sigma.length = 10 ∧ sigma.Nodup ∧ ∀ row ∈ sigma, ∀ k : Fin 16, k ∈ row.toList

/-- R179's example: the "abc" block. -/
def Obligations.CompressKnownAnswer : Prop :=
  compress #v[0x6B08E647, 0xBB67AE85, 0x3C6EF372, 0xA54FF53A, 0x510E527F, 0x9B05688C, 0x1F83D9AB, 0x5BE0CD19]
    3 0 0xFFFFFFFF 0 (Vector.ofFn fun i => if i.val = 0 then 0x61 else if i.val = 1 then 0x62 else if i.val = 2 then 0x63 else 0)
  = #v[0x8C5E8C50, 0xE2147C32, 0xA32BA7E1, 0x2F45EB4E, 0x208B4537, 0x293AD69E, 0x4C9B994D, 0x82596786]

/-! ## The whole machine -/

/-- The invariant holds at reset. -/
def Obligations.InvariantAtReset : Prop := Inv State.reset

/-- Every step keeps the invariant (R22 to R29). -/
def Obligations.StepKeepsTheInvariant : Prop :=
  ∀ s t : State, Inv s → step s = .next t → Inv t

/-- R27: "There are no other transitions." -/
def Obligations.PhaseTransitionsAreTheseOnly : Prop :=
  ∀ s t : State, step s = .next t →
    t.phase = s.phase ∨
    (s.phase ≠ .error ∧ t.phase = .absorb ∧ ∃ w rest, s.pending = .write .word 0x00 w :: rest ∧ s.rxLeft = 0 ∧
      ((∃ nn : Byte, 1 ≤ nn.toNat ∧ nn.toNat ≤ 32 ∧ w = encode (.init nn)) ∨
       ∃ nn kk : Byte, 1 ≤ nn.toNat ∧ nn.toNat ≤ 32 ∧ 1 ≤ kk.toNat ∧ kk.toNat ≤ 32 ∧ w = encode (.initKeyed nn kk))) ∨
    (s.phase = .absorb ∧ t.phase = .done ∧ ∃ rest, s.pending = .write .word 0x00 0x00000004 :: rest ∧ s.rxLeft = 0) ∨
    (s.phase ≠ .error ∧ t.phase = .error) ∨
    (t.phase = .idle ∧ ∃ rest, s.pending = .reset :: rest)

/-- R28: errcode and errword are written only by error entry and by reset. -/
def Obligations.ErrorRecordHasTwoWriters : Prop :=
  ∀ s t : State, step s = .next t → (t.errcode ≠ s.errcode ∨ t.errword ≠ s.errword) →
    (s.phase ≠ .error ∧ t.phase = .error) ∨ ∃ rest, s.pending = .reset :: rest

/-- The flags change only when FINALIZE sets f[0], when a constructor clears them, or at reset (R23). -/
def Obligations.FinalizeFlagHasTheseWriters : Prop :=
  ∀ s t : State, step s = .next t → (t.f0 ≠ s.f0 ∨ t.f1 ≠ s.f1) →
    (s.phase = .absorb ∧ t.phase = .done ∧ t.f0 = 0xFFFFFFFF ∧ t.f1 = s.f1) ∨
    (t.phase = .absorb ∧ t.f0 = 0 ∧ t.f1 = 0) ∨ ∃ rest, s.pending = .reset :: rest

/-- R157: in DONE the digest stays until a constructor or reset; everything else leaves the core as it is or enters
ERROR. -/
def Obligations.DigestStaysUntilTheNextContext : Prop :=
  ∀ s t : State, Inv s → s.phase = .done → step s = .next t →
    SameCore t s ∨ (t.phase = .error ∧ t.h = s.h) ∨ t.phase = .absorb ∨ ∃ rest, s.pending = .reset :: rest

/-- Every instruction's frame: no meaning touches the input stream or the read port, and outside an error entry the
error record stays. -/
def Obligations.ExecFrame : Prop :=
  ∀ (i : Instr) (s t : State), exec i s = .next t →
    t.pending = s.pending ∧ t.readData = s.readData ∧
    (t.phase ≠ .error → t.errcode = s.errcode ∧ t.errword = s.errword) ∧
    (s.phase = .error → t = s)

/-- One step raises the model's own count of shifts (assumption 4), one for each compression that is not the last, by at
most one; the compression of FINALIZE with f[0] set is not counted in it. -/
def Obligations.BufferShiftsPerStepAreBounded : Prop :=
  ∀ s t : State, s.buflen ≤ 128 → step s = .next t → s.freeCtr ≤ t.freeCtr ∧ t.freeCtr ≤ s.freeCtr + 1

/-- States that differ only where R24 and R37 say nothing can be observed stay so, step by step, whatever the free values
are; two states with equal elements of R20 are such a pair (R38), and so are reset and an idle core with any hashing
state (R37). -/
def Obligations.UnobservableStateStaysUnobservable : Prop :=
  (∀ a b : State, Inv a → Inv b → Alike a b → alikeOutcomes (step a) (step b) ∧ a.statusWord = b.statusWord) ∧
  (∀ a b : State, SameCore a b → a.pending = b.pending → a.readData = b.readData → Alike a b) ∧
  (∀ (s : State) h t0 t1 f0 f1 buf buflen, s.phase = .idle →
    Alike s { s with h := h, t0 := t0, t1 := t1, f0 := f0, f1 := f1, buf := buf, buflen := buflen })

/-- R39: an access to one instance leaves every other instance as it is, and does to its own what the core alone would
do. -/
def Obligations.InstancesShareNothing : Prop :=
  ∀ (i : SystemInput) (xs ys : List Window), windowsWf xs = true → systemPerform i xs = .next ys →
    ys.length = xs.length ∧
    ∀ (k : Nat) (hk : k < xs.length) (hk' : k < ys.length),
      ys[k].base = xs[k].base ∧
      (xs[k].holds i.addr = false → ys[k] = xs[k]) ∧
      (xs[k].holds i.addr = true →
        perform (i.atCore xs[k].base) { xs[k].core with readData := none } = .next ys[k].core)

/-- R214 "Each starts in reset state", on the model's platform (assumption 14): whatever the number of instances and their
bases, every core holds the reset table at the start, and a reset of the instance at a base gives it that table again and
leaves every other instance as it is (R230). -/
def Obligations.InstancesStartInReset : Prop :=
  (∀ bases : List Nat, basesWf bases = true →
    PlatformInv (platformStart bases) ∧ (platformStart bases).length = bases.length ∧
    (∀ inputs, platformRun bases inputs = systemRun inputs (platformStart bases)) ∧
    ∀ (k : Nat) (hk : k < bases.length) (hk' : k < (platformStart bases).length),
      (platformStart bases)[k].base = bases[k] ∧ ResetTable (platformStart bases)[k].core) ∧
  ∀ (xs : List Window) (k : Nat) (hk : k < xs.length), windowsWf xs = true →
    ∃ ys, systemPerform (.reset xs[k].base) xs = .next ys ∧ ys.length = xs.length ∧
      ∀ (j : Nat) (hj : j < xs.length) (hj' : j < ys.length),
        (j = k → ResetTable ys[j].core ∧ ys[j].base = xs[j].base) ∧ (j ≠ k → ys[j] = xs[j])

/-- Every access to the platform keeps its windows separate and aligned, and the invariant of every core (R26, R39, R65;
assumption 14). -/
def Obligations.PlatformKeepsItsInvariant : Prop :=
  ∀ (i : SystemInput) (xs ys : List Window), PlatformInv xs → systemPerform i xs = .next ys → PlatformInv ys
end

