-- ==== Sys2Proof/Laws/State.lean ====
section
/-! SUPPORT. What each named update of the state does to each field, one lemma a field, so that no later proof unfolds a
record update. -/

namespace Sys2Proof.Machine

variable (s : State)

/-! ## raiseError -/

@[simp] theorem raiseError_h (code : ErrCode) (info : Word) : (raiseError code info s).h = s.h := rfl
@[simp] theorem raiseError_t0 (code : ErrCode) (info : Word) : (raiseError code info s).t0 = s.t0 := rfl
@[simp] theorem raiseError_t1 (code : ErrCode) (info : Word) : (raiseError code info s).t1 = s.t1 := rfl
@[simp] theorem raiseError_f0 (code : ErrCode) (info : Word) : (raiseError code info s).f0 = s.f0 := rfl
@[simp] theorem raiseError_f1 (code : ErrCode) (info : Word) : (raiseError code info s).f1 = s.f1 := rfl
@[simp] theorem raiseError_buf (code : ErrCode) (info : Word) : (raiseError code info s).buf = s.buf := rfl
@[simp] theorem raiseError_buflen (code : ErrCode) (info : Word) : (raiseError code info s).buflen = s.buflen := rfl
@[simp] theorem raiseError_phase (code : ErrCode) (info : Word) : (raiseError code info s).phase = .error := rfl
@[simp] theorem raiseError_errcode (code : ErrCode) (info : Word) : (raiseError code info s).errcode = code := rfl
@[simp] theorem raiseError_errword (code : ErrCode) (info : Word) : (raiseError code info s).errword = info := rfl
@[simp] theorem raiseError_rxOp (code : ErrCode) (info : Word) : (raiseError code info s).rxOp = .none := rfl
@[simp] theorem raiseError_rxLeft (code : ErrCode) (info : Word) : (raiseError code info s).rxLeft = 0 := rfl
@[simp] theorem raiseError_pending (code : ErrCode) (info : Word) : (raiseError code info s).pending = s.pending := rfl
@[simp] theorem raiseError_readData (code : ErrCode) (info : Word) : (raiseError code info s).readData = s.readData := rfl
@[simp] theorem raiseError_freeCtr (code : ErrCode) (info : Word) : (raiseError code info s).freeCtr = s.freeCtr := rfl

/-! ## applyReset -/

@[simp] theorem applyReset_h : (applyReset s).h = State.reset.h := rfl
@[simp] theorem applyReset_t0 : (applyReset s).t0 = State.reset.t0 := rfl
@[simp] theorem applyReset_t1 : (applyReset s).t1 = State.reset.t1 := rfl
@[simp] theorem applyReset_f0 : (applyReset s).f0 = State.reset.f0 := rfl
@[simp] theorem applyReset_f1 : (applyReset s).f1 = State.reset.f1 := rfl
@[simp] theorem applyReset_buf : (applyReset s).buf = State.reset.buf := rfl
@[simp] theorem applyReset_buflen : (applyReset s).buflen = State.reset.buflen := rfl
@[simp] theorem applyReset_phase : (applyReset s).phase = State.reset.phase := rfl
@[simp] theorem applyReset_errcode : (applyReset s).errcode = State.reset.errcode := rfl
@[simp] theorem applyReset_errword : (applyReset s).errword = State.reset.errword := rfl
@[simp] theorem applyReset_rxOp : (applyReset s).rxOp = State.reset.rxOp := rfl
@[simp] theorem applyReset_rxLeft : (applyReset s).rxLeft = State.reset.rxLeft := rfl
@[simp] theorem applyReset_pending : (applyReset s).pending = s.pending := rfl
@[simp] theorem applyReset_readData : (applyReset s).readData = State.reset.readData := rfl
@[simp] theorem applyReset_freeCtr : (applyReset s).freeCtr = s.freeCtr := rfl

/-! ## startReceive -/

@[simp] theorem startReceive_h (op : RxOp) (left : BitVec 24) : (startReceive op left s).h = s.h := rfl
@[simp] theorem startReceive_t0 (op : RxOp) (left : BitVec 24) : (startReceive op left s).t0 = s.t0 := rfl
@[simp] theorem startReceive_t1 (op : RxOp) (left : BitVec 24) : (startReceive op left s).t1 = s.t1 := rfl
@[simp] theorem startReceive_f0 (op : RxOp) (left : BitVec 24) : (startReceive op left s).f0 = s.f0 := rfl
@[simp] theorem startReceive_f1 (op : RxOp) (left : BitVec 24) : (startReceive op left s).f1 = s.f1 := rfl
@[simp] theorem startReceive_buf (op : RxOp) (left : BitVec 24) : (startReceive op left s).buf = s.buf := rfl
@[simp] theorem startReceive_buflen (op : RxOp) (left : BitVec 24) : (startReceive op left s).buflen = s.buflen := rfl
@[simp] theorem startReceive_phase (op : RxOp) (left : BitVec 24) : (startReceive op left s).phase = s.phase := rfl
@[simp] theorem startReceive_errcode (op : RxOp) (left : BitVec 24) : (startReceive op left s).errcode = s.errcode := rfl
@[simp] theorem startReceive_errword (op : RxOp) (left : BitVec 24) : (startReceive op left s).errword = s.errword := rfl
@[simp] theorem startReceive_rxOp (op : RxOp) (left : BitVec 24) : (startReceive op left s).rxOp = op := rfl
@[simp] theorem startReceive_rxLeft (op : RxOp) (left : BitVec 24) : (startReceive op left s).rxLeft = left := rfl
@[simp] theorem startReceive_pending (op : RxOp) (left : BitVec 24) : (startReceive op left s).pending = s.pending := rfl
@[simp] theorem startReceive_readData (op : RxOp) (left : BitVec 24) : (startReceive op left s).readData = s.readData := rfl
@[simp] theorem startReceive_freeCtr (op : RxOp) (left : BitVec 24) : (startReceive op left s).freeCtr = s.freeCtr := rfl

/-! ## takePayload -/

@[simp] theorem takePayload_h : (takePayload s).h = s.h := rfl
@[simp] theorem takePayload_t0 : (takePayload s).t0 = s.t0 := rfl
@[simp] theorem takePayload_t1 : (takePayload s).t1 = s.t1 := rfl
@[simp] theorem takePayload_f0 : (takePayload s).f0 = s.f0 := rfl
@[simp] theorem takePayload_f1 : (takePayload s).f1 = s.f1 := rfl
@[simp] theorem takePayload_buf : (takePayload s).buf = s.buf := rfl
@[simp] theorem takePayload_buflen : (takePayload s).buflen = s.buflen := rfl
@[simp] theorem takePayload_phase : (takePayload s).phase = s.phase := rfl
@[simp] theorem takePayload_errcode : (takePayload s).errcode = s.errcode := rfl
@[simp] theorem takePayload_errword : (takePayload s).errword = s.errword := rfl
@[simp] theorem takePayload_rxOp : (takePayload s).rxOp = if (takePayload s).rxLeft = 0 then .none else s.rxOp := rfl
@[simp] theorem takePayload_rxLeft : (takePayload s).rxLeft = s.rxLeft - BitVec.ofNat 24 (min 4 s.rxLeft.toNat) := rfl
@[simp] theorem takePayload_pending : (takePayload s).pending = s.pending := rfl
@[simp] theorem takePayload_readData : (takePayload s).readData = s.readData := rfl
@[simp] theorem takePayload_freeCtr : (takePayload s).freeCtr = s.freeCtr := rfl

/-! ## incT -/

@[simp] theorem incT_h (n : Nat) : (incT n s).h = s.h := rfl
@[simp] theorem incT_t0 (n : Nat) : (incT n s).t0 = (byteCount s + BitVec.ofNat 64 n).extractLsb' 0 32 := rfl
@[simp] theorem incT_t1 (n : Nat) : (incT n s).t1 = (byteCount s + BitVec.ofNat 64 n).extractLsb' 32 32 := rfl
@[simp] theorem incT_f0 (n : Nat) : (incT n s).f0 = s.f0 := rfl
@[simp] theorem incT_f1 (n : Nat) : (incT n s).f1 = s.f1 := rfl
@[simp] theorem incT_buf (n : Nat) : (incT n s).buf = s.buf := rfl
@[simp] theorem incT_buflen (n : Nat) : (incT n s).buflen = s.buflen := rfl
@[simp] theorem incT_phase (n : Nat) : (incT n s).phase = s.phase := rfl
@[simp] theorem incT_errcode (n : Nat) : (incT n s).errcode = s.errcode := rfl
@[simp] theorem incT_errword (n : Nat) : (incT n s).errword = s.errword := rfl
@[simp] theorem incT_rxOp (n : Nat) : (incT n s).rxOp = s.rxOp := rfl
@[simp] theorem incT_rxLeft (n : Nat) : (incT n s).rxLeft = s.rxLeft := rfl
@[simp] theorem incT_pending (n : Nat) : (incT n s).pending = s.pending := rfl
@[simp] theorem incT_readData (n : Nat) : (incT n s).readData = s.readData := rfl
@[simp] theorem incT_freeCtr (n : Nat) : (incT n s).freeCtr = s.freeCtr := rfl

/-! ## appendBytes -/

@[simp] theorem appendBytes_h (bs : List Byte) : (appendBytes bs s).h = s.h := rfl
@[simp] theorem appendBytes_t0 (bs : List Byte) : (appendBytes bs s).t0 = s.t0 := rfl
@[simp] theorem appendBytes_t1 (bs : List Byte) : (appendBytes bs s).t1 = s.t1 := rfl
@[simp] theorem appendBytes_f0 (bs : List Byte) : (appendBytes bs s).f0 = s.f0 := rfl
@[simp] theorem appendBytes_f1 (bs : List Byte) : (appendBytes bs s).f1 = s.f1 := rfl
@[simp] theorem appendBytes_buf (bs : List Byte) : (appendBytes bs s).buf = bufWrite s.buf s.buflen bs := rfl
@[simp] theorem appendBytes_buflen (bs : List Byte) : (appendBytes bs s).buflen = s.buflen + bs.length := rfl
@[simp] theorem appendBytes_phase (bs : List Byte) : (appendBytes bs s).phase = s.phase := rfl
@[simp] theorem appendBytes_errcode (bs : List Byte) : (appendBytes bs s).errcode = s.errcode := rfl
@[simp] theorem appendBytes_errword (bs : List Byte) : (appendBytes bs s).errword = s.errword := rfl
@[simp] theorem appendBytes_rxOp (bs : List Byte) : (appendBytes bs s).rxOp = s.rxOp := rfl
@[simp] theorem appendBytes_rxLeft (bs : List Byte) : (appendBytes bs s).rxLeft = s.rxLeft := rfl
@[simp] theorem appendBytes_pending (bs : List Byte) : (appendBytes bs s).pending = s.pending := rfl
@[simp] theorem appendBytes_readData (bs : List Byte) : (appendBytes bs s).readData = s.readData := rfl
@[simp] theorem appendBytes_freeCtr (bs : List Byte) : (appendBytes bs s).freeCtr = s.freeCtr := rfl

/-! ## compressFront -/

@[simp] theorem compressFront_h : (compressFront s).h = compress s.h s.t0 s.t1 s.f0 s.f1 (frontBlock s.buf) := rfl
@[simp] theorem compressFront_t0 : (compressFront s).t0 = s.t0 := rfl
@[simp] theorem compressFront_t1 : (compressFront s).t1 = s.t1 := rfl
@[simp] theorem compressFront_f0 : (compressFront s).f0 = s.f0 := rfl
@[simp] theorem compressFront_f1 : (compressFront s).f1 = s.f1 := rfl
@[simp] theorem compressFront_buf : (compressFront s).buf = s.buf := rfl
@[simp] theorem compressFront_buflen : (compressFront s).buflen = s.buflen := rfl
@[simp] theorem compressFront_phase : (compressFront s).phase = s.phase := rfl
@[simp] theorem compressFront_errcode : (compressFront s).errcode = s.errcode := rfl
@[simp] theorem compressFront_errword : (compressFront s).errword = s.errword := rfl
@[simp] theorem compressFront_rxOp : (compressFront s).rxOp = s.rxOp := rfl
@[simp] theorem compressFront_rxLeft : (compressFront s).rxLeft = s.rxLeft := rfl
@[simp] theorem compressFront_pending : (compressFront s).pending = s.pending := rfl
@[simp] theorem compressFront_readData : (compressFront s).readData = s.readData := rfl
@[simp] theorem compressFront_freeCtr : (compressFront s).freeCtr = s.freeCtr := rfl

/-! ## shiftBuffer -/

@[simp] theorem shiftBuffer_h : (shiftBuffer s).h = s.h := rfl
@[simp] theorem shiftBuffer_t0 : (shiftBuffer s).t0 = s.t0 := rfl
@[simp] theorem shiftBuffer_t1 : (shiftBuffer s).t1 = s.t1 := rfl
@[simp] theorem shiftBuffer_f0 : (shiftBuffer s).f0 = s.f0 := rfl
@[simp] theorem shiftBuffer_f1 : (shiftBuffer s).f1 = s.f1 := rfl
@[simp] theorem shiftBuffer_buf : (shiftBuffer s).buf = shiftedBytes s.buf s.freeCtr := rfl
@[simp] theorem shiftBuffer_buflen : (shiftBuffer s).buflen = s.buflen := rfl
@[simp] theorem shiftBuffer_phase : (shiftBuffer s).phase = s.phase := rfl
@[simp] theorem shiftBuffer_errcode : (shiftBuffer s).errcode = s.errcode := rfl
@[simp] theorem shiftBuffer_errword : (shiftBuffer s).errword = s.errword := rfl
@[simp] theorem shiftBuffer_rxOp : (shiftBuffer s).rxOp = s.rxOp := rfl
@[simp] theorem shiftBuffer_rxLeft : (shiftBuffer s).rxLeft = s.rxLeft := rfl
@[simp] theorem shiftBuffer_pending : (shiftBuffer s).pending = s.pending := rfl
@[simp] theorem shiftBuffer_readData : (shiftBuffer s).readData = s.readData := rfl
@[simp] theorem shiftBuffer_freeCtr : (shiftBuffer s).freeCtr = s.freeCtr + 1 := rfl

/-! ## advanceBlock -/

@[simp] theorem advanceBlock_h : (advanceBlock s).h = compress s.h (incT 64 s).t0 (incT 64 s).t1 s.f0 s.f1 (frontBlock s.buf) := rfl
@[simp] theorem advanceBlock_t0 : (advanceBlock s).t0 = (incT 64 s).t0 := rfl
@[simp] theorem advanceBlock_t1 : (advanceBlock s).t1 = (incT 64 s).t1 := rfl
@[simp] theorem advanceBlock_f0 : (advanceBlock s).f0 = s.f0 := rfl
@[simp] theorem advanceBlock_f1 : (advanceBlock s).f1 = s.f1 := rfl
@[simp] theorem advanceBlock_buf : (advanceBlock s).buf = shiftedBytes s.buf s.freeCtr := rfl
@[simp] theorem advanceBlock_buflen : (advanceBlock s).buflen = s.buflen - 64 := rfl
@[simp] theorem advanceBlock_phase : (advanceBlock s).phase = s.phase := rfl
@[simp] theorem advanceBlock_errcode : (advanceBlock s).errcode = s.errcode := rfl
@[simp] theorem advanceBlock_errword : (advanceBlock s).errword = s.errword := rfl
@[simp] theorem advanceBlock_rxOp : (advanceBlock s).rxOp = s.rxOp := rfl
@[simp] theorem advanceBlock_rxLeft : (advanceBlock s).rxLeft = s.rxLeft := rfl
@[simp] theorem advanceBlock_pending : (advanceBlock s).pending = s.pending := rfl
@[simp] theorem advanceBlock_readData : (advanceBlock s).readData = s.readData := rfl
@[simp] theorem advanceBlock_freeCtr : (advanceBlock s).freeCtr = s.freeCtr + 1 := rfl

/-! ## initContext -/

@[simp] theorem initContext_h (nn kk : Byte) : (initContext nn kk s).h = seedChain nn kk := rfl
@[simp] theorem initContext_t0 (nn kk : Byte) : (initContext nn kk s).t0 = 0 := rfl
@[simp] theorem initContext_t1 (nn kk : Byte) : (initContext nn kk s).t1 = 0 := rfl
@[simp] theorem initContext_f0 (nn kk : Byte) : (initContext nn kk s).f0 = 0 := rfl
@[simp] theorem initContext_f1 (nn kk : Byte) : (initContext nn kk s).f1 = 0 := rfl
@[simp] theorem initContext_buf (nn kk : Byte) : (initContext nn kk s).buf = Vector.replicate 128 0 := rfl
@[simp] theorem initContext_buflen (nn kk : Byte) : (initContext nn kk s).buflen = 0 := rfl
@[simp] theorem initContext_phase (nn kk : Byte) : (initContext nn kk s).phase = .absorb := rfl
@[simp] theorem initContext_errcode (nn kk : Byte) : (initContext nn kk s).errcode = s.errcode := rfl
@[simp] theorem initContext_errword (nn kk : Byte) : (initContext nn kk s).errword = s.errword := rfl
@[simp] theorem initContext_rxOp (nn kk : Byte) : (initContext nn kk s).rxOp = s.rxOp := rfl
@[simp] theorem initContext_rxLeft (nn kk : Byte) : (initContext nn kk s).rxLeft = s.rxLeft := rfl
@[simp] theorem initContext_pending (nn kk : Byte) : (initContext nn kk s).pending = s.pending := rfl
@[simp] theorem initContext_readData (nn kk : Byte) : (initContext nn kk s).readData = s.readData := rfl
@[simp] theorem initContext_freeCtr (nn kk : Byte) : (initContext nn kk s).freeCtr = s.freeCtr := rfl

/-! ## closeKeyBlock -/

@[simp] theorem closeKeyBlock_h : (closeKeyBlock s).h = s.h := by unfold closeKeyBlock; split <;> rfl
@[simp] theorem closeKeyBlock_t0 : (closeKeyBlock s).t0 = s.t0 := by unfold closeKeyBlock; split <;> rfl
@[simp] theorem closeKeyBlock_t1 : (closeKeyBlock s).t1 = s.t1 := by unfold closeKeyBlock; split <;> rfl
@[simp] theorem closeKeyBlock_f0 : (closeKeyBlock s).f0 = s.f0 := by unfold closeKeyBlock; split <;> rfl
@[simp] theorem closeKeyBlock_f1 : (closeKeyBlock s).f1 = s.f1 := by unfold closeKeyBlock; split <;> rfl
@[simp] theorem closeKeyBlock_buf : (closeKeyBlock s).buf = s.buf := by unfold closeKeyBlock; split <;> rfl
@[simp] theorem closeKeyBlock_buflen : (closeKeyBlock s).buflen = if s.rxLeft = 0 then 64 else s.buflen := by unfold closeKeyBlock; split <;> rfl
@[simp] theorem closeKeyBlock_phase : (closeKeyBlock s).phase = s.phase := by unfold closeKeyBlock; split <;> rfl
@[simp] theorem closeKeyBlock_errcode : (closeKeyBlock s).errcode = s.errcode := by unfold closeKeyBlock; split <;> rfl
@[simp] theorem closeKeyBlock_errword : (closeKeyBlock s).errword = s.errword := by unfold closeKeyBlock; split <;> rfl
@[simp] theorem closeKeyBlock_rxOp : (closeKeyBlock s).rxOp = s.rxOp := by unfold closeKeyBlock; split <;> rfl
@[simp] theorem closeKeyBlock_rxLeft : (closeKeyBlock s).rxLeft = s.rxLeft := by unfold closeKeyBlock; split <;> rfl
@[simp] theorem closeKeyBlock_pending : (closeKeyBlock s).pending = s.pending := by unfold closeKeyBlock; split <;> rfl
@[simp] theorem closeKeyBlock_readData : (closeKeyBlock s).readData = s.readData := by unfold closeKeyBlock; split <;> rfl
@[simp] theorem closeKeyBlock_freeCtr : (closeKeyBlock s).freeCtr = s.freeCtr := by unfold closeKeyBlock; split <;> rfl

/-! ## zeroTail -/

@[simp] theorem zeroTail_h : (zeroTail s).h = s.h := rfl
@[simp] theorem zeroTail_t0 : (zeroTail s).t0 = s.t0 := rfl
@[simp] theorem zeroTail_t1 : (zeroTail s).t1 = s.t1 := rfl
@[simp] theorem zeroTail_f0 : (zeroTail s).f0 = s.f0 := rfl
@[simp] theorem zeroTail_f1 : (zeroTail s).f1 = s.f1 := rfl
@[simp] theorem zeroTail_buf : (zeroTail s).buf = bufWrite s.buf s.buflen (List.replicate (64 - s.buflen) 0) := rfl
@[simp] theorem zeroTail_buflen : (zeroTail s).buflen = s.buflen := rfl
@[simp] theorem zeroTail_phase : (zeroTail s).phase = s.phase := rfl
@[simp] theorem zeroTail_errcode : (zeroTail s).errcode = s.errcode := rfl
@[simp] theorem zeroTail_errword : (zeroTail s).errword = s.errword := rfl
@[simp] theorem zeroTail_rxOp : (zeroTail s).rxOp = s.rxOp := rfl
@[simp] theorem zeroTail_rxLeft : (zeroTail s).rxLeft = s.rxLeft := rfl
@[simp] theorem zeroTail_pending : (zeroTail s).pending = s.pending := rfl
@[simp] theorem zeroTail_readData : (zeroTail s).readData = s.readData := rfl
@[simp] theorem zeroTail_freeCtr : (zeroTail s).freeCtr = s.freeCtr := rfl

/-! ## flushLookahead -/

@[simp] theorem flushLookahead_f0 : (flushLookahead s).f0 = s.f0 := by unfold flushLookahead; split <;> rfl
@[simp] theorem flushLookahead_f1 : (flushLookahead s).f1 = s.f1 := by unfold flushLookahead; split <;> rfl
@[simp] theorem flushLookahead_phase : (flushLookahead s).phase = s.phase := by unfold flushLookahead; split <;> rfl
@[simp] theorem flushLookahead_errcode : (flushLookahead s).errcode = s.errcode := by unfold flushLookahead; split <;> rfl
@[simp] theorem flushLookahead_errword : (flushLookahead s).errword = s.errword := by unfold flushLookahead; split <;> rfl
@[simp] theorem flushLookahead_rxOp : (flushLookahead s).rxOp = s.rxOp := by unfold flushLookahead; split <;> rfl
@[simp] theorem flushLookahead_rxLeft : (flushLookahead s).rxLeft = s.rxLeft := by unfold flushLookahead; split <;> rfl
@[simp] theorem flushLookahead_pending : (flushLookahead s).pending = s.pending := by unfold flushLookahead; split <;> rfl
@[simp] theorem flushLookahead_readData : (flushLookahead s).readData = s.readData := by unfold flushLookahead; split <;> rfl

/-! ## markLast -/

@[simp] theorem markLast_h : (markLast s).h = s.h := rfl
@[simp] theorem markLast_t0 : (markLast s).t0 = s.t0 := rfl
@[simp] theorem markLast_t1 : (markLast s).t1 = s.t1 := rfl
@[simp] theorem markLast_f0 : (markLast s).f0 = lastBlockFlag := rfl
@[simp] theorem markLast_f1 : (markLast s).f1 = s.f1 := rfl
@[simp] theorem markLast_buf : (markLast s).buf = s.buf := rfl
@[simp] theorem markLast_buflen : (markLast s).buflen = s.buflen := rfl
@[simp] theorem markLast_phase : (markLast s).phase = s.phase := rfl
@[simp] theorem markLast_errcode : (markLast s).errcode = s.errcode := rfl
@[simp] theorem markLast_errword : (markLast s).errword = s.errword := rfl
@[simp] theorem markLast_rxOp : (markLast s).rxOp = s.rxOp := rfl
@[simp] theorem markLast_rxLeft : (markLast s).rxLeft = s.rxLeft := rfl
@[simp] theorem markLast_pending : (markLast s).pending = s.pending := rfl
@[simp] theorem markLast_readData : (markLast s).readData = s.readData := rfl
@[simp] theorem markLast_freeCtr : (markLast s).freeCtr = s.freeCtr := rfl

/-! ## closeHash -/

@[simp] theorem closeHash_h : (closeHash s).h = compress s.h (incT s.buflen s).t0 (incT s.buflen s).t1 lastBlockFlag s.f1 (frontBlock (zeroTail s).buf) := rfl
@[simp] theorem closeHash_t0 : (closeHash s).t0 = (incT s.buflen s).t0 := rfl
@[simp] theorem closeHash_t1 : (closeHash s).t1 = (incT s.buflen s).t1 := rfl
@[simp] theorem closeHash_f0 : (closeHash s).f0 = lastBlockFlag := rfl
@[simp] theorem closeHash_f1 : (closeHash s).f1 = s.f1 := rfl
@[simp] theorem closeHash_buf : (closeHash s).buf = (zeroTail s).buf := rfl
@[simp] theorem closeHash_buflen : (closeHash s).buflen = s.buflen := rfl
@[simp] theorem closeHash_phase : (closeHash s).phase = .done := rfl
@[simp] theorem closeHash_errcode : (closeHash s).errcode = s.errcode := rfl
@[simp] theorem closeHash_errword : (closeHash s).errword = s.errword := rfl
@[simp] theorem closeHash_rxOp : (closeHash s).rxOp = s.rxOp := rfl
@[simp] theorem closeHash_rxLeft : (closeHash s).rxLeft = s.rxLeft := rfl
@[simp] theorem closeHash_pending : (closeHash s).pending = s.pending := rfl
@[simp] theorem closeHash_readData : (closeHash s).readData = s.readData := rfl
@[simp] theorem closeHash_freeCtr : (closeHash s).freeCtr = s.freeCtr := rfl

/-! ## returnData -/

@[simp] theorem returnData_h (v : Word) : (returnData v s).h = s.h := rfl
@[simp] theorem returnData_t0 (v : Word) : (returnData v s).t0 = s.t0 := rfl
@[simp] theorem returnData_t1 (v : Word) : (returnData v s).t1 = s.t1 := rfl
@[simp] theorem returnData_f0 (v : Word) : (returnData v s).f0 = s.f0 := rfl
@[simp] theorem returnData_f1 (v : Word) : (returnData v s).f1 = s.f1 := rfl
@[simp] theorem returnData_buf (v : Word) : (returnData v s).buf = s.buf := rfl
@[simp] theorem returnData_buflen (v : Word) : (returnData v s).buflen = s.buflen := rfl
@[simp] theorem returnData_phase (v : Word) : (returnData v s).phase = s.phase := rfl
@[simp] theorem returnData_errcode (v : Word) : (returnData v s).errcode = s.errcode := rfl
@[simp] theorem returnData_errword (v : Word) : (returnData v s).errword = s.errword := rfl
@[simp] theorem returnData_rxOp (v : Word) : (returnData v s).rxOp = s.rxOp := rfl
@[simp] theorem returnData_rxLeft (v : Word) : (returnData v s).rxLeft = s.rxLeft := rfl
@[simp] theorem returnData_pending (v : Word) : (returnData v s).pending = s.pending := rfl
@[simp] theorem returnData_readData (v : Word) : (returnData v s).readData = some v := rfl
@[simp] theorem returnData_freeCtr (v : Word) : (returnData v s).freeCtr = s.freeCtr := rfl

/-! ## dropInput -/

@[simp] theorem dropInput_h (rest : List Input) : (dropInput rest s).h = s.h := rfl
@[simp] theorem dropInput_t0 (rest : List Input) : (dropInput rest s).t0 = s.t0 := rfl
@[simp] theorem dropInput_t1 (rest : List Input) : (dropInput rest s).t1 = s.t1 := rfl
@[simp] theorem dropInput_f0 (rest : List Input) : (dropInput rest s).f0 = s.f0 := rfl
@[simp] theorem dropInput_f1 (rest : List Input) : (dropInput rest s).f1 = s.f1 := rfl
@[simp] theorem dropInput_buf (rest : List Input) : (dropInput rest s).buf = s.buf := rfl
@[simp] theorem dropInput_buflen (rest : List Input) : (dropInput rest s).buflen = s.buflen := rfl
@[simp] theorem dropInput_phase (rest : List Input) : (dropInput rest s).phase = s.phase := rfl
@[simp] theorem dropInput_errcode (rest : List Input) : (dropInput rest s).errcode = s.errcode := rfl
@[simp] theorem dropInput_errword (rest : List Input) : (dropInput rest s).errword = s.errword := rfl
@[simp] theorem dropInput_rxOp (rest : List Input) : (dropInput rest s).rxOp = s.rxOp := rfl
@[simp] theorem dropInput_rxLeft (rest : List Input) : (dropInput rest s).rxLeft = s.rxLeft := rfl
@[simp] theorem dropInput_pending (rest : List Input) : (dropInput rest s).pending = rest := rfl
@[simp] theorem dropInput_readData (rest : List Input) : (dropInput rest s).readData = none := rfl
@[simp] theorem dropInput_freeCtr (rest : List Input) : (dropInput rest s).freeCtr = s.freeCtr := rfl

/-! ## pushCmdWrite -/

@[simp] theorem pushCmdWrite_h (w : Word) : (pushCmdWrite w s).h = s.h := rfl
@[simp] theorem pushCmdWrite_t0 (w : Word) : (pushCmdWrite w s).t0 = s.t0 := rfl
@[simp] theorem pushCmdWrite_t1 (w : Word) : (pushCmdWrite w s).t1 = s.t1 := rfl
@[simp] theorem pushCmdWrite_f0 (w : Word) : (pushCmdWrite w s).f0 = s.f0 := rfl
@[simp] theorem pushCmdWrite_f1 (w : Word) : (pushCmdWrite w s).f1 = s.f1 := rfl
@[simp] theorem pushCmdWrite_buf (w : Word) : (pushCmdWrite w s).buf = s.buf := rfl
@[simp] theorem pushCmdWrite_buflen (w : Word) : (pushCmdWrite w s).buflen = s.buflen := rfl
@[simp] theorem pushCmdWrite_phase (w : Word) : (pushCmdWrite w s).phase = s.phase := rfl
@[simp] theorem pushCmdWrite_errcode (w : Word) : (pushCmdWrite w s).errcode = s.errcode := rfl
@[simp] theorem pushCmdWrite_errword (w : Word) : (pushCmdWrite w s).errword = s.errword := rfl
@[simp] theorem pushCmdWrite_rxOp (w : Word) : (pushCmdWrite w s).rxOp = s.rxOp := rfl
@[simp] theorem pushCmdWrite_rxLeft (w : Word) : (pushCmdWrite w s).rxLeft = s.rxLeft := rfl
@[simp] theorem pushCmdWrite_pending (w : Word) : (pushCmdWrite w s).pending = .write .word 0x00 w :: s.pending := rfl
@[simp] theorem pushCmdWrite_readData (w : Word) : (pushCmdWrite w s).readData = s.readData := rfl
@[simp] theorem pushCmdWrite_freeCtr (w : Word) : (pushCmdWrite w s).freeCtr = s.freeCtr := rfl

end Sys2Proof.Machine
end

