-- ==== Sys2Proof/Laws/Words.lean ====
section
/-! SUPPORT. Bytes and words (R55 to R57, R76): lanes, packing, and the payload of a word. -/

namespace Sys2Proof.Machine

theorem lanes_wordOfBytes (a b c d : Byte) : lanes (wordOfBytes a b c d) = [a, b, c, d] := by
  simp only [lanes, List.cons.injEq, and_true]
  refine ⟨?_, ?_, ?_, ?_⟩ <;> ext i hi <;> unfold lane wordOfBytes <;>
    interval_cases i <;> simp [BitVec.getLsbD_of_ge, BitVec.getLsbD_eq_getElem]

theorem wordOfBytes_lanes (w : Word) : wordOfBytes (lane w 0) (lane w 1) (lane w 2) (lane w 3) = w := by
  ext i hi
  unfold lane wordOfBytes
  interval_cases i <;> simp [BitVec.getLsbD_eq_getElem]

/-- A lane as a shift and a truncation (R56). -/
theorem lane_eq_shift (w : Word) (j : Nat) : lane w j = (w >>> (8 * j)).setWidth 8 := by
  unfold lane
  ext i hi
  simp [BitVec.getLsbD_ushiftRight]

@[simp] theorem lanes_length (w : Word) : (lanes w).length = 4 := rfl

theorem lanes_getD (w : Word) (j : Nat) (hj : j < 4) : (lanes w).getD j 0 = lane w j := by
  interval_cases j <;> rfl

theorem payloadBytes_length (left : Nat) (w : Word) : (payloadBytes left w).length = min 4 left := by
  rw [payloadBytes, List.length_take, lanes_length]; omega

theorem payloadBytes_getD (left : Nat) (w : Word) (j : Nat) (hj : j < min 4 left) :
    (payloadBytes left w).getD j 0 = lane w j := by
  rw [payloadBytes, List.getD_eq_getElem?_getD, List.getElem?_take_of_lt hj, ← List.getD_eq_getElem?_getD,
    lanes_getD w j (by omega)]

/-- Only the carried lanes of a word matter (R76). -/
theorem payloadBytes_congr (left : Nat) (w w' : Word) (h : ∀ j, j < min 4 left → lane w j = lane w' j) :
    payloadBytes left w = payloadBytes left w' := by
  apply List.ext_getElem
  · rw [payloadBytes_length, payloadBytes_length]
  · intro j h1 h2
    have hj : j < min 4 left := by rw [payloadBytes_length] at h1; exact h1
    have e1 := payloadBytes_getD left w j hj
    have e2 := payloadBytes_getD left w' j hj
    rw [List.getD_eq_getElem _ _ h1] at e1
    rw [List.getD_eq_getElem _ _ h2] at e2
    rw [e1, e2, h j hj]

theorem packWords_length (bs : List Byte) : (packWords bs).length = (bs.length + 3) / 4 := by
  induction bs using packWords.induct with
  | case1 => rfl
  | case2 => simp [packWords]
  | case3 => simp [packWords]
  | case4 => simp [packWords]
  | case5 a b c d rest ih => simp only [packWords, List.length_cons, ih]; omega

/-- The packed words carry the bytes back, in stream order (R57). -/
theorem packWords_lanes (bs : List Byte) : ((packWords bs).flatMap lanes).take bs.length = bs := by
  induction bs using packWords.induct with
  | case1 => rfl
  | case2 a => simp [packWords, lanes_wordOfBytes]
  | case3 a b => simp [packWords, lanes_wordOfBytes]
  | case4 a b c => simp [packWords, lanes_wordOfBytes]
  | case5 a b c d rest ih => simp [packWords, lanes_wordOfBytes, ih]

/-- One more payload word: its carried lanes come first, the rest of the payload after them. -/
theorem take_flatMap_lanes_cons (left : Nat) (w : Word) (ws : List Word) :
    ((w :: ws).flatMap lanes).take left = payloadBytes left w ++ (ws.flatMap lanes).take (left - 4) := by
  rw [List.flatMap_cons, List.take_append, lanes_length, payloadBytes]
  rw [List.take_eq_take_min (i := left), lanes_length, Nat.min_comm left]

end Sys2Proof.Machine
end

