-- ==== Sys2Proof/Laws/PerInstr.lean ====
section
/-! SUPPORT. The encoding of each instruction: its fields read back from its word (R72 to R76). -/

namespace Sys2Proof

/-- A header word is its four byte fields. -/
theorem word_of_byteFields (w : Word) :
    w = (opcodeField w).setWidth 32 ||| ((nnField w).setWidth 32 <<< 8) ||| ((kkField w).setWidth 32 <<< 16) |||
      ((w.extractLsb' 24 8).setWidth 32 <<< 24) := by
  ext i hi
  unfold opcodeField nnField kkField
  interval_cases i <;> simp [BitVec.getLsbD_eq_getElem]

/-- A header word is its OPCODE and its upper 24 bits. -/
theorem word_of_lenField (w : Word) : w = (opcodeField w).setWidth 32 ||| ((lenField w).setWidth 32 <<< 8) := by
  ext i hi
  unfold opcodeField lenField
  interval_cases i <;> simp [BitVec.getLsbD_eq_getElem]

/-- A header word is its OPCODE, NN and upper half. -/
theorem word_of_halfFields (w : Word) :
    w = (opcodeField w).setWidth 32 ||| ((nnField w).setWidth 32 <<< 8) |||
      ((w.extractLsb' 16 16).setWidth 32 <<< 16) := by
  ext i hi
  unfold opcodeField nnField
  interval_cases i <;> simp [BitVec.getLsbD_eq_getElem]

namespace Laws.RoundTrip

/-- The word of an instruction decodes to it in its own context. -/
def Statement (i : Instr) : Prop := decodeWord i.kind (encode i) = .ok i

theorem init (nn : Byte) : Statement (.init nn) := by
  have h1 : opcodeField (encode (.init nn)) = 1 := by
    unfold opcodeField encode; ext i hi; interval_cases i <;> simp [BitVec.getLsbD_eq_getElem]
  have h2 : (encode (.init nn)).extractLsb' 16 16 = 0 := by
    unfold encode; ext i hi; interval_cases i <;> simp [BitVec.getLsbD_of_ge]
  have h3 : nnField (encode (.init nn)) = nn := by
    unfold nnField encode; ext i hi; interval_cases i <;> simp [BitVec.getLsbD_eq_getElem]
  simp [Statement, Instr.kind, decodeWord, decodeHeader, h1, h2, h3]

theorem initKeyed (nn kk : Byte) : Statement (.initKeyed nn kk) := by
  have h1 : opcodeField (encode (.initKeyed nn kk)) = 2 := by
    unfold opcodeField encode; ext i hi; interval_cases i <;> simp [BitVec.getLsbD_eq_getElem]
  have h2 : (encode (.initKeyed nn kk)).extractLsb' 24 8 = 0 := by
    unfold encode; ext i hi; interval_cases i <;> simp [BitVec.getLsbD_of_ge]
  have h3 : nnField (encode (.initKeyed nn kk)) = nn := by
    unfold nnField encode; ext i hi; interval_cases i <;> simp [BitVec.getLsbD_eq_getElem]
  have h4 : kkField (encode (.initKeyed nn kk)) = kk := by
    unfold kkField encode; ext i hi; interval_cases i <;> simp [BitVec.getLsbD_eq_getElem, BitVec.getLsbD_of_ge]
  simp [Statement, Instr.kind, decodeWord, decodeHeader, h1, h2, h3, h4]

theorem keyword (w : Word) : Statement (.keyword w) := rfl

theorem update (len : BitVec 24) : Statement (.update len) := by
  have h1 : opcodeField (encode (.update len)) = 3 := by
    unfold opcodeField encode; ext i hi; interval_cases i <;> simp [BitVec.getLsbD_eq_getElem]
  have h2 : lenField (encode (.update len)) = len := by
    unfold lenField encode; ext i hi; interval_cases i <;> simp [BitVec.getLsbD_eq_getElem]
  simp [Statement, Instr.kind, decodeWord, decodeHeader, h1, h2]

theorem dataword (w : Word) : Statement (.dataword w) := rfl

theorem finalize : Statement .finalize := by
  simp [Statement, Instr.kind, decodeWord, decodeHeader, encode, opcodeField]

end Laws.RoundTrip

end Sys2Proof
end

