-- ==== Sys2Proof/Laws/Bus.lean ====
section
/-! SUPPORT. What one CMD write and one step can do, said once (R27, R60, R70): later proofs take these cases apart and
unfold neither `exec` nor `step`. -/

namespace Sys2Proof.Machine

/-! ## Decoding -/

theorem decodeHeader_encode (i : Instr) (h : i.kind = .header) : decodeHeader (encode i) = .ok i := by
  cases i with
  | init nn => exact Laws.RoundTrip.init nn
  | initKeyed nn kk => exact Laws.RoundTrip.initKeyed nn kk
  | keyword w => cases h
  | update len => exact Laws.RoundTrip.update len
  | dataword w => cases h
  | finalize => exact Laws.RoundTrip.finalize

/-- A header word that decodes is the word of its instruction. -/
theorem encode_of_decodeHeader (w : Word) (i : Instr) (h : decodeHeader w = .ok i) :
    i.kind = .header ∧ encode i = w := by
  unfold decodeHeader at h
  split at h
  · next h1 =>
    split at h
    · next h2 =>
      cases h
      refine ⟨rfl, ?_⟩
      conv_rhs => rw [word_of_halfFields w, h1, h2]
      simp [encode]
    · cases h
  · split at h
    · next h1 =>
      split at h
      · next h2 =>
        cases h
        refine ⟨rfl, ?_⟩
        conv_rhs => rw [word_of_byteFields w, h1, h2]
        simp [encode]
      · cases h
    · split at h
      · next h1 =>
        cases h
        refine ⟨rfl, ?_⟩
        conv_rhs => rw [word_of_lenField w, h1]
        simp [encode]
      · split at h
        · next h1 =>
          split at h
          · next h2 =>
            cases h
            refine ⟨rfl, ?_⟩
            conv_rhs => rw [word_of_lenField w, h1, lenField, h2]
            simp [encode]
          · cases h
        · cases h

/-! ## One CMD write -/

theorem cmdWrite_error (w : Word) (s : State) (h : s.phase = .error) : cmdWrite w s = .next s := by
  rw [cmdWrite, if_pos h]

theorem cmdWrite_header (w : Word) (s : State) (i : Instr) (h : s.phase ≠ .error) (hl : s.rxLeft = 0)
    (hd : decodeHeader w = .ok i) : cmdWrite w s = exec i s := by
  simp [cmdWrite, wordKind, decodeWord, h, hl, hd]

theorem cmdWrite_illegal (w : Word) (s : State) (r : DecodeReject) (h : s.phase ≠ .error) (hl : s.rxLeft = 0)
    (hd : decodeHeader w = .error r) : cmdWrite w s = .next (raiseError .illegal w s) := by
  simp [cmdWrite, wordKind, decodeWord, h, hl, hd]

theorem wordKind_pending (s : State) (hl : s.rxLeft ≠ 0) :
    wordKind s = match s.rxOp with | .key => some .key | .data => some .data | .none => none := by
  unfold wordKind
  exact if_neg hl

/-- Payload with no command pending is refused; R26 (e) rules the state out. -/
theorem cmdWrite_noCommand (w : Word) (s : State) (h : s.phase ≠ .error) (hl : s.rxLeft ≠ 0) (ho : s.rxOp = .none) :
    cmdWrite w s = .refused .noPendingCommand := by
  rw [cmdWrite, if_neg h, wordKind_pending s hl, ho]

theorem cmdWrite_key (w : Word) (s : State) (h : s.phase ≠ .error) (hl : s.rxLeft ≠ 0) (ho : s.rxOp = .key) :
    cmdWrite w s = exec (.keyword w) s := by
  rw [cmdWrite, if_neg h, wordKind_pending s hl, ho]; rfl

theorem cmdWrite_data (w : Word) (s : State) (h : s.phase ≠ .error) (hl : s.rxLeft ≠ 0) (ho : s.rxOp = .data) :
    cmdWrite w s = exec (.dataword w) s := by
  rw [cmdWrite, if_neg h, wordKind_pending s hl, ho]; rfl

theorem cmdWrite_encode (i : Instr) (s : State) (hk : i.kind = .header) (h : s.phase ≠ .error) (hl : s.rxLeft = 0) :
    cmdWrite (encode i) s = exec i s :=
  cmdWrite_header _ s i h hl (decodeHeader_encode i hk)

/-! ## The meanings, each in the case its operands and the phase select -/

theorem exec_init (nn : Byte) (s : State) (h : s.phase ≠ .error) (hn : legalDigestSize nn) :
    exec (.init nn) s = .next (initContext nn 0 s) := by
  rw [exec, execInit, unlessError, if_neg h, if_pos hn]

theorem exec_init_bad (nn : Byte) (s : State) (h : s.phase ≠ .error) (hn : ¬ legalDigestSize nn) :
    exec (.init nn) s = .next (raiseError .badDigestSize (encode (.init nn)) s) := by
  rw [exec, execInit, unlessError, if_neg h, if_neg hn]

theorem exec_initKeyed (nn kk : Byte) (s : State) (h : s.phase ≠ .error) (hn : legalDigestSize nn)
    (hk : legalKeyLen kk) :
    exec (.initKeyed nn kk) s = .next (startReceive .key (kk.setWidth 24) (initContext nn kk s)) := by
  rw [exec, execInitKeyed, unlessError, if_neg h, if_neg (not_not_intro hn), if_neg (not_not_intro hk)]

theorem exec_initKeyed_badSize (nn kk : Byte) (s : State) (h : s.phase ≠ .error) (hn : ¬ legalDigestSize nn) :
    exec (.initKeyed nn kk) s = .next (raiseError .badDigestSize (encode (.initKeyed nn kk)) s) := by
  rw [exec, execInitKeyed, unlessError, if_neg h, if_pos hn]

theorem exec_initKeyed_badKey (nn kk : Byte) (s : State) (h : s.phase ≠ .error) (hn : legalDigestSize nn)
    (hk : ¬ legalKeyLen kk) :
    exec (.initKeyed nn kk) s = .next (raiseError .badKeyLen (encode (.initKeyed nn kk)) s) := by
  rw [exec, execInitKeyed, unlessError, if_neg h, if_neg (not_not_intro hn), if_pos hk]

theorem exec_keyword (w : Word) (s : State) (h : s.phase ≠ .error) :
    exec (.keyword w) s =
      .next (closeKeyBlock (takePayload (appendBytes (payloadBytes s.rxLeft.toNat w) s))) := by
  rw [exec, execKeyword, unlessError, if_neg h]

theorem exec_update_zero (s : State) (h : s.phase = .absorb) : exec (.update 0) s = .next s := by
  simp [exec, execUpdate, unlessError, h]

theorem exec_update (len : BitVec 24) (s : State) (h : s.phase = .absorb) (hl : len ≠ 0) :
    exec (.update len) s = .next (startReceive .data len s) := by
  rw [exec, execUpdate, unlessError, if_neg (by rw [h]; decide), if_neg (not_not_intro h), if_neg hl]

theorem exec_update_bad (len : BitVec 24) (s : State) (h : s.phase ≠ .error) (ha : s.phase ≠ .absorb) :
    exec (.update len) s = .next (raiseError .sequence (encode (.update len)) s) := by
  simp [exec, execUpdate, unlessError, h, ha]

theorem exec_dataword (w : Word) (s : State) (h : s.phase ≠ .error) :
    exec (.dataword w) s = .next (takePayload (updateBytes (payloadBytes s.rxLeft.toNat w) s)) := by
  rw [exec, execDataword, unlessError, if_neg h]

theorem exec_finalize (s : State) (h : s.phase = .absorb) : exec .finalize s = .next (finishHash s) := by
  simp [exec, execFinalize, unlessError, h]

theorem exec_finalize_bad (s : State) (h : s.phase ≠ .error) (ha : s.phase ≠ .absorb) :
    exec .finalize s = .next (raiseError .sequence (encode .finalize) s) := by
  simp [exec, execFinalize, unlessError, h, ha]

theorem exec_error (i : Instr) (s : State) (h : s.phase = .error) : exec i s = .next s := by
  cases i <;> simp [exec, execInit, execInitKeyed, execKeyword, execUpdate, execDataword, execFinalize, unlessError, h]

/-- Everything one instruction can do. -/
inductive ExecEffect (s : State) : Instr → State → Prop where
  | ignored (i : Instr) (h : s.phase = .error) : ExecEffect s i s
  | raised (i : Instr) (c : ErrCode) (h : s.phase ≠ .error) (hk : i.kind = .header) (hc : c ≠ .none)
      (hi : c ≠ .illegal) (hd : c ≠ .digestRead) : ExecEffect s i (raiseError c (encode i) s)
  | init (nn : Byte) (h : s.phase ≠ .error) (hn : legalDigestSize nn) : ExecEffect s (.init nn) (initContext nn 0 s)
  | initKeyed (nn kk : Byte) (h : s.phase ≠ .error) (hn : legalDigestSize nn) (hk : legalKeyLen kk) :
      ExecEffect s (.initKeyed nn kk) (startReceive .key (kk.setWidth 24) (initContext nn kk s))
  | keyword (w : Word) (h : s.phase ≠ .error) :
      ExecEffect s (.keyword w) (closeKeyBlock (takePayload (appendBytes (payloadBytes s.rxLeft.toNat w) s)))
  | updateZero (h : s.phase = .absorb) : ExecEffect s (.update 0) s
  | update (len : BitVec 24) (h : s.phase = .absorb) (hl : len ≠ 0) :
      ExecEffect s (.update len) (startReceive .data len s)
  | dataword (w : Word) (h : s.phase ≠ .error) :
      ExecEffect s (.dataword w) (takePayload (updateBytes (payloadBytes s.rxLeft.toNat w) s))
  | finalize (h : s.phase = .absorb) : ExecEffect s .finalize (finishHash s)

/-- Every instruction answers a next state, and that state is one of the effects. -/
theorem exec_effect (i : Instr) (s : State) : ∃ t, exec i s = .next t ∧ ExecEffect s i t := by
  by_cases h : s.phase = .error
  · exact ⟨s, exec_error i s h, .ignored i h⟩
  cases i with
  | init nn =>
    by_cases hn : legalDigestSize nn
    · exact ⟨_, exec_init nn s h hn, .init nn h hn⟩
    · exact ⟨_, exec_init_bad nn s h hn, .raised _ _ h rfl (by decide) (by decide) (by decide)⟩
  | initKeyed nn kk =>
    by_cases hn : legalDigestSize nn
    · by_cases hk : legalKeyLen kk
      · exact ⟨_, exec_initKeyed nn kk s h hn hk, .initKeyed nn kk h hn hk⟩
      · exact ⟨_, exec_initKeyed_badKey nn kk s h hn hk, .raised _ _ h rfl (by decide) (by decide) (by decide)⟩
    · exact ⟨_, exec_initKeyed_badSize nn kk s h hn, .raised _ _ h rfl (by decide) (by decide) (by decide)⟩
  | keyword w => exact ⟨_, exec_keyword w s h, .keyword w h⟩
  | update len =>
    by_cases ha : s.phase = .absorb
    · by_cases hl : len = 0
      · subst hl; exact ⟨_, exec_update_zero s ha, .updateZero ha⟩
      · exact ⟨_, exec_update len s ha hl, .update len ha hl⟩
    · exact ⟨_, exec_update_bad len s h ha, .raised _ _ h rfl (by decide) (by decide) (by decide)⟩
  | dataword w => exact ⟨_, exec_dataword w s h, .dataword w h⟩
  | finalize =>
    by_cases ha : s.phase = .absorb
    · exact ⟨_, exec_finalize s ha, .finalize ha⟩
    · exact ⟨_, exec_finalize_bad s h ha, .raised _ _ h rfl (by decide) (by decide) (by decide)⟩

theorem exec_cases {i : Instr} {s t : State} (h : exec i s = .next t) : ExecEffect s i t := by
  obtain ⟨t', ht, he⟩ := exec_effect i s
  rw [ht] at h
  cases h
  exact he

/-- Everything one CMD write can do: it is ignored in ERROR, it raises ILLEGAL, or it runs the instruction its context
selects. -/
inductive CmdEffect (w : Word) (s : State) : State → Prop where
  | ignored (h : s.phase = .error) : CmdEffect w s s
  | illegal (h : s.phase ≠ .error) (hl : s.rxLeft = 0) : CmdEffect w s (raiseError .illegal w s)
  | header (i : Instr) (t : State) (h : s.phase ≠ .error) (hl : s.rxLeft = 0) (hk : i.kind = .header)
      (hw : encode i = w) (he : ExecEffect s i t) : CmdEffect w s t
  | key (t : State) (h : s.phase ≠ .error) (hl : s.rxLeft ≠ 0) (ho : s.rxOp = .key)
      (he : ExecEffect s (.keyword w) t) : CmdEffect w s t
  | data (t : State) (h : s.phase ≠ .error) (hl : s.rxLeft ≠ 0) (ho : s.rxOp = .data)
      (he : ExecEffect s (.dataword w) t) : CmdEffect w s t

theorem cmdWrite_cases {w : Word} {s t : State} (h : cmdWrite w s = .next t) : CmdEffect w s t := by
  by_cases he : s.phase = .error
  · rw [cmdWrite_error w s he] at h; cases h; exact .ignored he
  by_cases hl : s.rxLeft = 0
  · cases hd : decodeHeader w with
    | error r => rw [cmdWrite_illegal w s r he hl hd] at h; cases h; exact .illegal he hl
    | ok i =>
      rw [cmdWrite_header w s i he hl hd] at h
      obtain ⟨hk, hw⟩ := encode_of_decodeHeader w i hd
      exact .header i t he hl hk hw (exec_cases h)
  · cases ho : s.rxOp with
    | none => rw [cmdWrite_noCommand w s he hl ho] at h; cases h
    | key => rw [cmdWrite_key w s he hl ho] at h; exact .key t he hl ho (exec_cases h)
    | data => rw [cmdWrite_data w s he hl ho] at h; exact .data t he hl ho (exec_cases h)

/-- A CMD write completes unless payload is pending for no command. -/
theorem cmdWrite_next (w : Word) (s : State) (h : s.rxOp ≠ .none ∨ s.rxLeft = 0) : ∃ t, cmdWrite w s = .next t := by
  by_cases he : s.phase = .error
  · exact ⟨s, cmdWrite_error w s he⟩
  by_cases hl : s.rxLeft = 0
  · cases hd : decodeHeader w with
    | error r => exact ⟨_, cmdWrite_illegal w s r he hl hd⟩
    | ok i =>
      obtain ⟨t, ht, -⟩ := exec_effect i s
      exact ⟨t, by rw [cmdWrite_header w s i he hl hd, ht]⟩
  · cases ho : s.rxOp with
    | none => exact absurd h (by rw [ho]; exact fun h' => h'.elim (· rfl) hl)
    | key =>
      obtain ⟨t, ht, -⟩ := exec_effect (.keyword w) s
      exact ⟨t, by rw [cmdWrite_key w s he hl ho, ht]⟩
    | data =>
      obtain ⟨t, ht, -⟩ := exec_effect (.dataword w) s
      exact ⟨t, by rw [cmdWrite_data w s he hl ho, ht]⟩

/-! ## Register reads -/

theorem accessProblem_none {size : AccessSize} {off : Nat} (h : accessProblem size off = none) :
    size = .word ∧ off % 4 = 0 ∧ off < 64 := by
  unfold accessProblem at h
  split at h
  · cases h
  · split at h
    · cases h
    · split at h
      · cases h
      · next h1 h2 h3 =>
        exact ⟨by simpa using h1, by simpa using h2, by simpa [Config.windowBytes] using h3⟩

theorem accessProblem_word (off : Nat) (h4 : off % 4 = 0) (h : off < 64) : accessProblem .word off = none := by
  simp [accessProblem, h4, Config.windowBytes, Nat.not_le.mpr h]

/-- Everything a register read can do: it returns a word and changes nothing else, or it raises DIGEST_READ. -/
theorem readRegister_cases (off : Nat) (s : State) (h4 : off % 4 = 0) :
    (∃ v, readRegister off s = returnData v s) ∨
      ((s.phase = .idle ∨ s.phase = .absorb) ∧ (0x20 ≤ off ∧ off < 0x40) ∧
        readRegister off s = returnData 0 (raiseError .digestRead (BitVec.ofNat 32 off) s)) := by
  unfold readRegister
  split
  · exact .inl ⟨_, rfl⟩
  · split
    · exact .inl ⟨_, rfl⟩
    · split
      · next hd =>
        have hoff : 0x20 + 4 * ((off - 0x20) / 4) = off := by omega
        unfold readDigest
        simp only [hoff]
        split
        · exact .inl ⟨_, rfl⟩
        · exact .inl ⟨_, rfl⟩
        · next h => exact .inr ⟨.inl h, hd, rfl⟩
        · next h => exact .inr ⟨.inr h, hd, rfl⟩
      · exact .inl ⟨_, rfl⟩

/-! ## One step -/

/-- Everything one step can do. -/
inductive StepEffect (s : State) : State → Prop where
  | wait (h : s.pending = []) : StepEffect s s
  | reset (rest : List Input) (h : s.pending = .reset :: rest) : StepEffect s (applyReset (dropInput rest s))
  | cmd (w : Word) (rest : List Input) (t : State) (h : s.pending = .write .word 0x00 w :: rest)
      (he : CmdEffect w (dropInput rest s) t) : StepEffect s t
  | ignoredWrite (off : Nat) (w : Word) (rest : List Input) (h : s.pending = .write .word off w :: rest)
      (ho : off ≠ 0) : StepEffect s (dropInput rest s)
  | read (off : Nat) (v : Word) (rest : List Input) (h : s.pending = .read .word off :: rest)
      (hv : readRegister off (dropInput rest s) = returnData v (dropInput rest s)) :
      StepEffect s (returnData v (dropInput rest s))
  | digestError (off : Nat) (rest : List Input) (h : s.pending = .read .word off :: rest)
      (hp : s.phase = .idle ∨ s.phase = .absorb) (ho : 0x20 ≤ off ∧ off < 0x40) :
      StepEffect s (returnData 0 (raiseError .digestRead (BitVec.ofNat 32 off) (dropInput rest s)))

theorem step_cons (i : Input) (rest : List Input) (s : State) (h : s.pending = i :: rest) :
    step s = perform i (dropInput rest s) := by
  simp [step, takeInput, h]

/-- Performing an input is the step that finds it in front of the inputs still to come. -/
theorem step_pushed (i : Input) (s : State) :
    step { s with pending := i :: s.pending } = perform i { s with readData := none } :=
  step_cons i s.pending { s with pending := i :: s.pending } rfl

theorem step_nil (s : State) (h : s.pending = []) : step s = .next s := by
  simp [step, takeInput, h]

theorem step_cases {s t : State} (h : step s = .next t) : StepEffect s t := by
  cases hp : s.pending with
  | nil => rw [step_nil s hp] at h; cases h; exact .wait hp
  | cons i rest =>
    rw [step_cons i rest s hp] at h
    cases i with
    | reset => cases h; exact .reset rest hp
    | write size off w =>
      simp only [perform, busWrite] at h
      split at h
      · cases h
      · next hn =>
        obtain ⟨rfl, -, -⟩ := accessProblem_none hn
        split at h
        · next h0 => subst h0; exact .cmd w rest t hp (cmdWrite_cases h)
        · next h0 => cases h; exact .ignoredWrite off w rest hp h0
    | read size off =>
      simp only [perform, busRead] at h
      split at h
      · cases h
      · next hn =>
        obtain ⟨rfl, h4, -⟩ := accessProblem_none hn
        obtain ⟨v, hv⟩ | ⟨hph, ho, hi⟩ := readRegister_cases off (dropInput rest s) h4
        · rw [hv] at h; cases h; exact .read off v rest hp hv
        · rw [hi] at h; cases h; exact .digestError off rest hp hph ho

end Sys2Proof.Machine
end

