-- ==== Sys2Proof/Laws/Buffer.lean ====
section
/-! SUPPORT. The buffer (R24): what its writes and the shift leave at each index, and the update loop of R130 as
byte-by-byte feeding. -/

namespace Sys2Proof.Machine

theorem bufWrite_append (buf : Vector Byte 128) (o : Nat) (a b : List Byte) :
    bufWrite buf o (a ++ b) = bufWrite (bufWrite buf o a) (o + a.length) b := by
  induction a generalizing buf o with
  | nil => rfl
  | cons x xs ih =>
    simp only [List.cons_append, bufWrite, ih, List.length_cons]
    rw [Nat.add_assoc, Nat.add_comm 1]

/-- What a buffer write leaves at each index: the written byte inside the range, the old one outside. -/
theorem bufWrite_get (buf : Vector Byte 128) (o : Nat) (bs : List Byte) (j : Nat) (hj : j < 128) :
    (bufWrite buf o bs)[j] = if o ≤ j ∧ j < o + bs.length then bs.getD (j - o) 0 else buf[j] := by
  induction bs generalizing buf o with
  | nil =>
    have : ¬ (o ≤ j ∧ j < o + ([] : List Byte).length) := by simp only [List.length_nil]; omega
    rw [if_neg this, bufWrite]
  | cons x xs ih =>
    rw [bufWrite, ih, Vector.getElem_setIfInBounds hj]
    simp only [List.length_cons]
    by_cases h1 : o = j
    · subst h1
      rw [if_neg (by omega), if_pos rfl, if_pos (by omega), Nat.sub_self, List.getD_cons_zero]
    · by_cases h2 : o + 1 ≤ j ∧ j < o + 1 + xs.length
      · rw [if_pos h2, if_pos (by omega)]
        obtain ⟨k, rfl⟩ : ∃ k, j = o + 1 + k := ⟨j - (o + 1), by omega⟩
        have e1 : o + 1 + k - (o + 1) = k := by omega
        have e2 : o + 1 + k - o = k + 1 := by omega
        rw [e1, e2, List.getD_cons_succ]
      · rw [if_neg h2, if_neg h1, if_neg (by omega)]

theorem frontBlock_get (buf : Vector Byte 128) (i : Nat) (hi : i < 64) : (frontBlock buf)[i] = buf[i] := by
  unfold frontBlock
  rw [Vector.getElem_ofFn]

theorem blockOf_get (data : List Byte) (i : Nat) (hi : i < 64) : (blockOf data)[i] = data.getD i 0 := by
  unfold blockOf
  rw [Vector.getElem_ofFn]

/-- The whole content of the buffer after a shift. -/
theorem shiftedBytes_get (buf : Vector Byte 128) (k j : Nat) (hj : j < 128) :
    (shiftedBytes buf k)[j] = if h : j < 64 then buf[j + 64] else Config.freeShiftByte k j := by
  unfold shiftedBytes
  rw [Vector.getElem_ofFn]

/-- The bytes of the buffer after step 4 of R150. -/
theorem zeroTail_get (s : State) (j : Nat) (hj : j < 128) :
    (zeroTail s).buf[j] = if s.buflen ≤ j ∧ j < 64 then 0 else s.buf[j] := by
  rw [zeroTail_buf]
  rw [bufWrite_get, List.length_replicate]
  split
  · rw [if_pos (by omega), List.getD_replicate _ (by omega)]
  · rw [if_neg (by omega)]

theorem frontBlock_eq (buf : Vector Byte 128) : frontBlock buf = Vector.ofFn fun i => buf[i.val] := by
  unfold frontBlock
  rfl

/-- The parameter block, byte by byte (R100). -/
theorem paramBlock_get (nn kk : Byte) (j : Nat) (hj : j < 64) :
    (paramBlock nn kk)[j] =
      if j = 0 then nn else if j = 1 then kk else if j = 2 then 1 else if j = 3 then 1 else 0 := by
  unfold paramBlock
  rw [Vector.getElem_ofFn]

theorem bufWrite_nil (buf : Vector Byte 128) (o : Nat) : bufWrite buf o [] = buf := rfl

theorem appendBytes_nil (s : State) : appendBytes [] s = s := rfl

theorem appendBytes_append (a b : List Byte) (s : State) :
    appendBytes (a ++ b) s = appendBytes b (appendBytes a s) := by
  simp [appendBytes, bufWrite_append, Nat.add_assoc]

/-! ## UpdateBytes byte by byte -/

/-- One byte into the buffer: the block in front is consumed first when the buffer is full. -/
def pushByte (s : State) (b : Byte) : State :=
  appendBytes [b] (if s.buflen = 128 then advanceBlock s else s)

theorem pushByte_full (s : State) (b : Byte) (h : s.buflen = 128) :
    pushByte s b = pushByte (advanceBlock s) b := by
  have h' : (advanceBlock s).buflen ≠ 128 := by rw [advanceBlock_buflen]; omega
  rw [pushByte, pushByte, if_pos h, if_neg h']

theorem pushByte_buflen_le (s : State) (b : Byte) (h : s.buflen ≤ 128) : (pushByte s b).buflen ≤ 128 := by
  unfold pushByte
  split
  · simp; omega
  · simp; omega

theorem foldl_pushByte_room (data : List Byte) (s : State) (h : s.buflen + data.length ≤ 128) :
    data.foldl pushByte s = appendBytes data s := by
  induction data generalizing s with
  | nil => exact (appendBytes_nil s).symm
  | cons b bs ih =>
    rw [List.length_cons] at h
    have hp : pushByte s b = appendBytes [b] s := by rw [pushByte, if_neg (by omega)]
    rw [List.foldl_cons, hp, ih _ (by rw [appendBytes_buflen]; simp; omega), ← appendBytes_append]
    rfl

/-- The loop of R130 runs to its return within `turns` turns, and does what byte-by-byte feeding does. -/
theorem updateLoop_turns (turns : Nat) (data : List Byte) (s : State) (hs : s.buflen ≤ 128)
    (ht : if s.buflen = 128 then data.length < turns else data.length ≤ turns ∧ 1 ≤ turns) :
    updateLoop turns data s = data.foldl pushByte s := by
  induction turns generalizing data s with
  | zero => split at ht <;> omega
  | succ turns ih =>
    rw [updateLoop]
    split
    · next hlen =>
      have hlen' : (data.take (128 - s.buflen)).length = 128 - s.buflen := by
        rw [List.length_take]; omega
      have hfull : ({ s with buf := bufWrite s.buf s.buflen (data.take (128 - s.buflen)), buflen := 128 } : State)
          = appendBytes (data.take (128 - s.buflen)) s := by
        unfold appendBytes
        rw [hlen', Nat.add_sub_cancel' hs]
      rw [hfull]
      have hb : (appendBytes (data.take (128 - s.buflen)) s).buflen = 128 := by
        rw [appendBytes_buflen, hlen']; omega
      have hdrop : (data.drop (128 - s.buflen)).length = data.length - (128 - s.buflen) := List.length_drop
      rw [ih _ _ (by rw [advanceBlock_buflen, hb]; omega)
        (by rw [advanceBlock_buflen, hb, if_neg (by omega), hdrop]; split at ht <;> omega)]
      conv_rhs => rw [← List.take_append_drop (128 - s.buflen) data, List.foldl_append]
      rw [foldl_pushByte_room _ s (by rw [hlen']; omega)]
      cases hd : data.drop (128 - s.buflen) with
      | nil => rw [hd] at hdrop; simp at hdrop; omega
      | cons b bs => rw [List.foldl_cons, List.foldl_cons, ← pushByte_full _ _ hb]
    · exact (foldl_pushByte_room data s (by omega)).symm

theorem updateBytes_eq_foldl (data : List Byte) (s : State) (hs : s.buflen ≤ 128) :
    updateBytes data s = data.foldl pushByte s := by
  rw [updateBytes]
  exact updateLoop_turns _ _ _ hs (by split <;> omega)

theorem updateBytes_buflen_le (data : List Byte) (s : State) (hs : s.buflen ≤ 128) :
    (updateBytes data s).buflen ≤ 128 := by
  rw [updateBytes_eq_foldl data s hs]
  induction data generalizing s with
  | nil => exact hs
  | cons b bs ih => exact ih _ (pushByte_buflen_le s b hs)

theorem updateBytes_room (data : List Byte) (s : State) (h : s.buflen + data.length ≤ 128) :
    updateBytes data s = appendBytes data s := by
  rw [updateBytes_eq_foldl data s (by omega), foldl_pushByte_room data s h]

/-- Feeding bytes that fill the buffer and go on past it, by less than a block: one AdvanceBlock between two copies. -/
theorem updateBytes_one_advance (data : List Byte) (s : State) (hs : s.buflen ≤ 128) (h : 128 < s.buflen + data.length)
    (h' : s.buflen + data.length ≤ 192) :
    updateBytes data s =
      appendBytes (data.drop (128 - s.buflen)) (advanceBlock (appendBytes (data.take (128 - s.buflen)) s)) := by
  rw [updateBytes_eq_foldl _ _ hs]
  conv_lhs => rw [← List.take_append_drop (128 - s.buflen) data, List.foldl_append]
  have hl1 : (data.take (128 - s.buflen)).length = 128 - s.buflen := by rw [List.length_take]; omega
  have hl2 : (data.drop (128 - s.buflen)).length = data.length - (128 - s.buflen) := List.length_drop
  rw [foldl_pushByte_room _ s (by omega)]
  have hb : (appendBytes (data.take (128 - s.buflen)) s).buflen = 128 := by rw [appendBytes_buflen, hl1]; omega
  cases hd : data.drop (128 - s.buflen) with
  | nil => rw [hd] at hl2; simp at hl2; omega
  | cons b bs =>
    rw [List.foldl_cons, pushByte_full _ _ hb, ← List.foldl_cons, foldl_pushByte_room]
    rw [advanceBlock_buflen, hb, ← hd]; omega

end Sys2Proof.Machine
end

