-- ==== Sys2Proof/Laws/Update.lean ====
section
/-! SUPPORT. What feeding bytes (R130) and FINALIZE (R150) leave alone. -/

namespace Sys2Proof.Machine

/-- A part of the state that neither AdvanceBlock nor a buffer write changes is not changed by UpdateBytes. -/
theorem updateBytes_keeps {α : Type} (g : State → α) (hA : ∀ s, g (advanceBlock s) = g s)
    (hB : ∀ (s : State) buf n, g { s with buf := buf, buflen := n } = g s) (data : List Byte) (s : State) :
    g (updateBytes data s) = g s := by
  unfold updateBytes
  generalize data.length + 1 = turns
  induction turns generalizing data s with
  | zero => rfl
  | succ turns ih =>
    rw [updateLoop]
    split
    · rw [ih, hA, hB]
    · exact hB s _ _

@[simp] theorem updateBytes_f0 (data : List Byte) (s : State) : (updateBytes data s).f0 = s.f0 :=
  updateBytes_keeps State.f0 (fun _ => rfl) (fun _ _ _ => rfl) data s
@[simp] theorem updateBytes_f1 (data : List Byte) (s : State) : (updateBytes data s).f1 = s.f1 :=
  updateBytes_keeps State.f1 (fun _ => rfl) (fun _ _ _ => rfl) data s
@[simp] theorem updateBytes_phase (data : List Byte) (s : State) : (updateBytes data s).phase = s.phase :=
  updateBytes_keeps State.phase (fun _ => rfl) (fun _ _ _ => rfl) data s
@[simp] theorem updateBytes_errcode (data : List Byte) (s : State) : (updateBytes data s).errcode = s.errcode :=
  updateBytes_keeps State.errcode (fun _ => rfl) (fun _ _ _ => rfl) data s
@[simp] theorem updateBytes_errword (data : List Byte) (s : State) : (updateBytes data s).errword = s.errword :=
  updateBytes_keeps State.errword (fun _ => rfl) (fun _ _ _ => rfl) data s
@[simp] theorem updateBytes_rxOp (data : List Byte) (s : State) : (updateBytes data s).rxOp = s.rxOp :=
  updateBytes_keeps State.rxOp (fun _ => rfl) (fun _ _ _ => rfl) data s
@[simp] theorem updateBytes_rxLeft (data : List Byte) (s : State) : (updateBytes data s).rxLeft = s.rxLeft :=
  updateBytes_keeps State.rxLeft (fun _ => rfl) (fun _ _ _ => rfl) data s
@[simp] theorem updateBytes_pending (data : List Byte) (s : State) : (updateBytes data s).pending = s.pending :=
  updateBytes_keeps State.pending (fun _ => rfl) (fun _ _ _ => rfl) data s
@[simp] theorem updateBytes_readData (data : List Byte) (s : State) : (updateBytes data s).readData = s.readData :=
  updateBytes_keeps State.readData (fun _ => rfl) (fun _ _ _ => rfl) data s

/-- The receiver takes no part in feeding bytes. -/
theorem updateBytes_startReceive (op : RxOp) (left : BitVec 24) (data : List Byte) (s : State) :
    updateBytes data (startReceive op left s) = startReceive op left (updateBytes data s) := by
  unfold updateBytes
  generalize data.length + 1 = turns
  induction turns generalizing data s with
  | zero => rfl
  | succ turns ih =>
    rw [updateLoop, updateLoop, startReceive_buflen]
    split
    · rw [← ih]; rfl
    · rfl

/-! ## FINALIZE -/

@[simp] theorem finishHash_phase (s : State) : (finishHash s).phase = .done := by simp [finishHash]
@[simp] theorem finishHash_f0 (s : State) : (finishHash s).f0 = lastBlockFlag := by simp [finishHash]
@[simp] theorem finishHash_f1 (s : State) : (finishHash s).f1 = s.f1 := by simp [finishHash]
@[simp] theorem finishHash_errcode (s : State) : (finishHash s).errcode = s.errcode := by simp [finishHash]
@[simp] theorem finishHash_errword (s : State) : (finishHash s).errword = s.errword := by simp [finishHash]
@[simp] theorem finishHash_rxOp (s : State) : (finishHash s).rxOp = s.rxOp := by simp [finishHash]
@[simp] theorem finishHash_rxLeft (s : State) : (finishHash s).rxLeft = s.rxLeft := by simp [finishHash]
@[simp] theorem finishHash_pending (s : State) : (finishHash s).pending = s.pending := by simp [finishHash]
@[simp] theorem finishHash_readData (s : State) : (finishHash s).readData = s.readData := by simp [finishHash]

end Sys2Proof.Machine
end

