-- ==== Sys2Proof/Laws/Stream.lean ====
section
/-! SUPPORT. The counter (R22, R135), and what a context holds after a whole stream of bytes and after FINALIZE (R137,
R155, R156). -/

namespace Sys2Proof.Machine

/-! ## The counter -/
theorem byteCount_toNat (s : State) : (byteCount s).toNat = s.t0.toNat + 2 ^ 32 * s.t1.toNat := by
  have h0 := s.t0.isLt
  have h1 := s.t1.isLt
  simp only [byteCount, BitVec.toNat_add, BitVec.toNat_mul, BitVec.toNat_setWidth, BitVec.ofNat_eq_ofNat, BitVec.toNat_ofNat]
  omega

theorem incT_t0_eq (n : Nat) (s : State) : (incT n s).t0 = countLow s n := by
  rw [incT_t0, countLow]
  apply BitVec.eq_of_toNat_eq
  simp only [BitVec.extractLsb'_toNat, BitVec.toNat_add, byteCount_toNat, BitVec.toNat_ofNat, Nat.shiftRight_zero]
  omega

theorem incT_t1_eq (n : Nat) (s : State) : (incT n s).t1 = countHigh s n := by
  rw [incT_t1, countHigh]
  apply BitVec.eq_of_toNat_eq
  simp only [BitVec.extractLsb'_toNat, BitVec.toNat_add, byteCount_toNat, BitVec.toNat_ofNat, Nat.shiftRight_eq_div_pow]
  omega

theorem byteCount_incT (n : Nat) (s : State) : byteCount (incT n s) = byteCount s + BitVec.ofNat 64 n := by
  apply BitVec.eq_of_toNat_eq
  rw [byteCount_toNat, incT_t0_eq, incT_t1_eq, countLow, countHigh, BitVec.toNat_add, byteCount_toNat]
  simp only [BitVec.toNat_ofNat]
  omega

/-- Two states with the same counter words have the same byte count. -/
theorem byteCount_congr {a b : State} (h0 : a.t0 = b.t0) (h1 : a.t1 = b.t1) : byteCount a = byteCount b := by
  rw [byteCount, byteCount, h0, h1]

@[simp] theorem byteCount_advanceBlock (s : State) : byteCount (advanceBlock s) = byteCount s + 64 := by
  rw [show byteCount (advanceBlock s) = byteCount (incT 64 s) from byteCount_congr rfl rfl, byteCount_incT]; rfl

theorem byteCount_closeHash (s : State) : byteCount (closeHash s) = byteCount (incT s.buflen s) :=
  byteCount_congr (closeHash_t0 s) (closeHash_t1 s)

@[simp] theorem byteCount_initContext (nn kk : Byte) (s : State) : byteCount (initContext nn kk s) = 0 := by
  simp [byteCount]

/-- The counter words of a count that is known as a number. -/
theorem countWord_of_byteCount (s : State) (n : Nat) (h : byteCount s = BitVec.ofNat 64 n) :
    s.t0 = countWord n 0 ∧ s.t1 = countWord n 1 := by
  have h' := congrArg BitVec.toNat h
  rw [byteCount_toNat, BitVec.toNat_ofNat] at h'
  have h0 := s.t0.isLt
  have h1 := s.t1.isLt
  constructor <;> apply BitVec.eq_of_toNat_eq <;> simp only [countWord, BitVec.toNat_ofNat, Nat.mul_zero, Nat.mul_one, Nat.pow_zero, Nat.div_one] <;> omega

/-- AdvanceBlock and then the rest of a count is the whole count (R134, R135, R150). -/
theorem incT_advanceBlock (s : State) (n : Nat) :
    (incT n (advanceBlock s)).t0 = (incT (n + 64) s).t0 ∧ (incT n (advanceBlock s)).t1 = (incT (n + 64) s).t1 := by
  have h : byteCount (advanceBlock s) + BitVec.ofNat 64 n = byteCount s + BitVec.ofNat 64 (n + 64) := by
    rw [byteCount_advanceBlock]
    apply BitVec.eq_of_toNat_eq
    simp only [BitVec.toNat_add, BitVec.ofNat_eq_ofNat, BitVec.toNat_ofNat]; omega
  rw [incT_t0, incT_t0, incT_t1, incT_t1, h]
  exact ⟨rfl, rfl⟩

/-! ## Streams -/
theorem blockOf_congr (a b : List Byte) (h : ∀ i, i < 64 → a.getD i 0 = b.getD i 0) : blockOf a = blockOf b := by
  apply Vector.ext
  intro i hi
  rw [blockOf_get, blockOf_get, h i hi]

theorem frontBlock_eq_blockOf (buf : Vector Byte 128) (a : List Byte)
    (h : ∀ i (hi : i < 64), buf[i] = a.getD i 0) : frontBlock buf = blockOf a := by
  apply Vector.ext
  intro i hi
  rw [frontBlock_get, blockOf_get, h i hi]

/-- The chain of blocks, the last one taken off at the end. -/
theorem chainBlocks_succ (c : Nat) (h : Vector Word 8) (n : Nat) (data : List Byte) :
    chainBlocks (c + 1) h n data = plainBlock (chainBlocks c h n data) (n + 64 * (c + 1)) (data.drop (64 * c)) := by
  induction c generalizing h n data with
  | zero => rfl
  | succ c ih =>
    rw [chainBlocks, ih, chainBlocks, List.drop_drop]
    congr 1
    · omega
    · congr 1; omega

/-- Bytes after the blocks do not matter to them. -/
theorem chainBlocks_append (c : Nat) (h : Vector Word 8) (n : Nat) (data more : List Byte)
    (hl : 64 * c ≤ data.length) : chainBlocks c h n (data ++ more) = chainBlocks c h n data := by
  induction c generalizing h n data with
  | zero => rfl
  | succ c ih =>
    rw [chainBlocks, chainBlocks, List.drop_append_of_le_length (by omega), ih _ _ _ (by rw [List.length_drop]; omega)]
    congr 1
    unfold plainBlock
    congr 1
    apply blockOf_congr
    intro i hi
    rw [List.getD_append _ _ _ _ (by omega)]

/-- What a context holds after the bytes `data`, when `blocks` blocks are compressed (R137). -/
structure Fed (h0 : Vector Word 8) (ctr : Nat) (data : List Byte) (t : State) : Prop where
  f0 : t.f0 = 0
  f1 : t.f1 = 0
  buflen : t.buflen = data.length - 64 * ((data.length - 65) / 64)
  count : byteCount t = BitVec.ofNat 64 (64 * ((data.length - 65) / 64))
  h : t.h = chainBlocks ((data.length - 65) / 64) h0 0 data
  freeCtr : t.freeCtr = ctr + (data.length - 65) / 64
  valid : ∀ j (hj : j < 128), j < t.buflen → t.buf[j] = data.getD (64 * ((data.length - 65) / 64) + j) 0

theorem Fed.push {h0 : Vector Word 8} {ctr : Nat} {data : List Byte} {t : State} (hf : Fed h0 ctr data t) (b : Byte) :
    Fed h0 ctr (data ++ [b]) (pushByte t b) := by
  obtain ⟨f0, f1, hb, hc, hh, hk, hv⟩ := hf
  have hlen : (data ++ [b]).length = data.length + 1 := by simp
  generalize hcd : (data.length - 65) / 64 = c at *
  by_cases hfull : t.buflen = 128
  · have hc' : (data.length + 1 - 65) / 64 = c + 1 := by omega
    have hp : pushByte t b = appendBytes [b] (advanceBlock t) := by rw [pushByte, if_pos hfull]
    have hcount : byteCount (incT 64 t) = BitVec.ofNat 64 (64 * (c + 1)) := by
      rw [byteCount_incT, hc]
      apply BitVec.eq_of_toNat_eq
      simp only [BitVec.toNat_add, BitVec.toNat_ofNat]; omega
    obtain ⟨hw0, hw1⟩ := countWord_of_byteCount _ _ hcount
    rw [hp]
    constructor
    · exact f0
    · exact f1
    · rw [hlen, hc']; simp only [appendBytes_buflen, advanceBlock_buflen, List.length_singleton]; omega
    · rw [hlen, hc', ← hcount]; rfl
    · rw [hlen, hc', chainBlocks_append _ _ _ _ _ (by omega), chainBlocks_succ, ← hh]
      simp only [appendBytes_h, advanceBlock_h, hw0, hw1, f0, f1, plainBlock, Nat.zero_add]
      congr 1
      apply frontBlock_eq_blockOf
      intro i hi
      rw [hv i (by omega) (by omega), List.getD_eq_getElem?_getD, List.getD_eq_getElem?_getD, List.getElem?_drop]
    · rw [hlen, hc']; simp only [appendBytes_freeCtr, advanceBlock_freeCtr]; omega
    · intro j hj hj'
      simp only [appendBytes_buflen, advanceBlock_buflen, List.length_singleton, appendBytes_buf, advanceBlock_buf] at hj' ⊢
      rw [hlen, hc', bufWrite_get]
      simp only [List.length_singleton]
      split
      · next hlt =>
        have : j = 64 := by omega
        subst this
        rw [List.getD_append_right _ _ _ _ (by omega)]
        congr 1; omega
      · next hlt =>
        rw [shiftedBytes_get, dif_pos (by omega), hv _ (by omega) (by omega), List.getD_append _ _ _ _ (by omega)]
        congr 1; omega
  · have hc' : (data.length + 1 - 65) / 64 = c := by omega
    have hp : pushByte t b = appendBytes [b] t := by rw [pushByte, if_neg hfull]
    rw [hp]
    constructor
    · exact f0
    · exact f1
    · rw [hlen, hc']; simp only [appendBytes_buflen, List.length_singleton]; omega
    · rw [hlen, hc', ← hc]; rfl
    · rw [hlen, hc', chainBlocks_append _ _ _ _ _ (by omega)]; exact hh
    · rw [hlen, hc']; exact hk
    · intro j hj hj'
      simp only [appendBytes_buflen, List.length_singleton, appendBytes_buf] at hj' ⊢
      rw [hlen, hc', bufWrite_get]
      simp only [List.length_singleton]
      split
      · next hlt =>
        rw [List.getD_append_right _ _ _ _ (by omega)]
        congr 1; omega
      · next hlt =>
        rw [hv _ (by omega) (by omega), List.getD_append _ _ _ _ (by omega)]

theorem Fed.init (nn kk : Byte) (s : State) : Fed (seedChain nn kk) s.freeCtr [] (initContext nn kk s) :=
  ⟨rfl, rfl, rfl, by simp, rfl, rfl, fun j hj h => absurd h (Nat.not_lt_zero j)⟩

theorem Fed.foldl {h0 : Vector Word 8} {ctr : Nat} (data more : List Byte) (t : State) (hf : Fed h0 ctr data t) :
    Fed h0 ctr (data ++ more) (more.foldl pushByte t) := by
  induction more generalizing data t with
  | nil => simpa using hf
  | cons b bs ih => rw [List.foldl_cons, ← List.singleton_append, ← List.append_assoc]; exact ih _ _ (hf.push b)

theorem Fed.buflen_le {h0 : Vector Word 8} {ctr : Nat} {data : List Byte} {t : State} (hf : Fed h0 ctr data t) :
    t.buflen ≤ 128 := by rw [hf.buflen]; omega

/-- Feeding more bytes into a context extends its stream (R136, R137). -/
theorem Fed.updateBytes {h0 : Vector Word 8} {ctr : Nat} {data : List Byte} {t : State} (hf : Fed h0 ctr data t)
    (more : List Byte) : Fed h0 ctr (data ++ more) (updateBytes more t) := by
  rw [updateBytes_eq_foldl more t hf.buflen_le]
  exact Fed.foldl data more t hf

/-- FINALIZE of a fed context gives the hash of its stream (R155, R156). -/
theorem Fed.finishHash {h0 : Vector Word 8} {ctr : Nat} {data : List Byte} {t : State} (hf : Fed h0 ctr data t) :
    (finishHash t).h = hashStream h0 data ∧ byteCount (finishHash t) = BitVec.ofNat 64 data.length ∧
    (finishHash t).freeCtr = ctr + (data.length - 1) / 64 := by
  obtain ⟨f0, f1, hb, hc, hh, hk, hv⟩ := hf
  generalize hcd : (data.length - 65) / 64 = c at *
  by_cases hbl : 64 < t.buflen
  · have hfl : flushLookahead t = advanceBlock t := by rw [flushLookahead, if_pos hbl]
    have hpb : plainBlocks data.length = c + 1 := by unfold plainBlocks; omega
    have hcount : byteCount (incT 64 t) = BitVec.ofNat 64 (64 * (c + 1)) := by
      rw [byteCount_incT, hc]
      apply BitVec.eq_of_toNat_eq
      simp only [BitVec.toNat_add, BitVec.toNat_ofNat]; omega
    obtain ⟨hw0, hw1⟩ := countWord_of_byteCount _ _ hcount
    have hah : (advanceBlock t).h = chainBlocks (c + 1) h0 0 data := by
      rw [chainBlocks_succ, ← hh, advanceBlock_h, hw0, hw1, f0, f1, plainBlock, Nat.zero_add]
      congr 1
      apply frontBlock_eq_blockOf
      intro i hi
      rw [hv i (by omega) (by omega), List.getD_eq_getElem?_getD, List.getD_eq_getElem?_getD, List.getElem?_drop]
    have hab : (advanceBlock t).buflen = data.length - 64 * (c + 1) := by rw [advanceBlock_buflen]; omega
    have hcount2 : byteCount (incT (advanceBlock t).buflen (advanceBlock t)) = BitVec.ofNat 64 data.length := by
      rw [byteCount_incT, byteCount_advanceBlock, hc, hab]
      apply BitVec.eq_of_toNat_eq
      simp only [BitVec.toNat_add, BitVec.ofNat_eq_ofNat, BitVec.toNat_ofNat]; omega
    obtain ⟨hx0, hx1⟩ := countWord_of_byteCount _ _ hcount2
    unfold Sys2Proof.Machine.finishHash
    rw [hfl]
    refine ⟨?_, ?_, ?_⟩
    · rw [closeHash_h, hashStream, hpb, hah, hx0, hx1, advanceBlock_f1, f1, lastBlock, lastBlockFlag]
      congr 1
      apply frontBlock_eq_blockOf
      intro i hi
      rw [zeroTail_buf, bufWrite_get]
      rw [List.length_replicate]
      split
      · next hlt =>
        rw [List.getD_replicate _ (by omega), List.getD_eq_default _ _ (by rw [List.length_drop]; omega)]
      · next hlt =>
        rw [advanceBlock_buf, shiftedBytes_get, dif_pos hi, hv _ (by omega) (by omega),
          List.getD_eq_getElem?_getD, List.getD_eq_getElem?_getD, List.getElem?_drop]
        congr 2; omega
    · rw [byteCount_closeHash]; exact hcount2
    · rw [closeHash_freeCtr, advanceBlock_freeCtr]; omega
  · have hfl : flushLookahead t = t := by rw [flushLookahead, if_neg hbl]
    have hc0 : c = 0 := by omega
    subst hc0
    have hpb : plainBlocks data.length = 0 := by unfold plainBlocks; omega
    have hcount2 : byteCount (incT t.buflen t) = BitVec.ofNat 64 data.length := by
      rw [byteCount_incT, hc, hb]
      apply BitVec.eq_of_toNat_eq
      simp only [BitVec.toNat_add, BitVec.toNat_ofNat]; omega
    obtain ⟨hx0, hx1⟩ := countWord_of_byteCount _ _ hcount2
    unfold Sys2Proof.Machine.finishHash
    rw [hfl]
    refine ⟨?_, ?_, ?_⟩
    · rw [closeHash_h, hashStream, hpb, hh, hx0, hx1, f1, lastBlock, lastBlockFlag]
      congr 1
      apply frontBlock_eq_blockOf
      intro i hi
      rw [zeroTail_buf, bufWrite_get]
      rw [List.length_replicate]
      split
      · next hlt =>
        rw [List.getD_replicate _ (by omega), List.getD_eq_default _ _ (by rw [List.length_drop]; omega)]
      · next hlt =>
        rw [hv _ (by omega) (by omega)]
        congr 1; omega
    · rw [byteCount_closeHash]; exact hcount2
    · rw [closeHash_freeCtr]; omega

end Sys2Proof.Machine
end

