-- ==== Sys2Proof/Laws/Alike.lean ====
section
/-! SUPPORT. States no host can tell apart (R24, R37): the operations on what they share. -/

namespace Sys2Proof.Machine

/-- Two open contexts with the same chain, counter, flags and valid bytes. -/
structure SameStream (a b : State) : Prop where
  le : a.buflen ≤ 128
  h : a.h = b.h
  t0 : a.t0 = b.t0
  t1 : a.t1 = b.t1
  f0 : a.f0 = b.f0
  f1 : a.f1 = b.f1
  buflen : a.buflen = b.buflen
  valid : ∀ j (hj : j < 128), j < a.buflen → a.buf[j] = b.buf[j]

theorem SameStream.advance {a b : State} (h : SameStream a b) (hb : 64 ≤ a.buflen) :
    SameStream (advanceBlock a) (advanceBlock b) := by
  obtain ⟨hle, e1, e2, e3, e4, e5, e6, hv⟩ := h
  have hf : frontBlock a.buf = frontBlock b.buf := by
    apply Vector.ext
    intro i hi
    rw [frontBlock_get, frontBlock_get, hv i (by omega) (by omega)]
  have ht : (incT 64 a).t0 = (incT 64 b).t0 ∧ (incT 64 a).t1 = (incT 64 b).t1 := by
    rw [incT_t0, incT_t0, incT_t1, incT_t1, byteCount_congr e2 e3]; exact ⟨rfl, rfl⟩
  constructor
  · rw [advanceBlock_buflen]; omega
  · rw [advanceBlock_h, advanceBlock_h, hf, ht.1, ht.2, e1, e4, e5]
  · exact ht.1
  · exact ht.2
  · exact e4
  · exact e5
  · rw [advanceBlock_buflen, advanceBlock_buflen, e6]
  · intro j hj hlt
    rw [advanceBlock_buflen] at hlt
    rw [advanceBlock_buf, advanceBlock_buf, shiftedBytes_get, shiftedBytes_get, dif_pos (by omega), dif_pos (by omega),
      hv _ (by omega) (by omega)]

theorem SameStream.append {a b : State} (h : SameStream a b) (bs : List Byte) (hb : a.buflen + bs.length ≤ 128) :
    SameStream (appendBytes bs a) (appendBytes bs b) := by
  obtain ⟨hle, e1, e2, e3, e4, e5, e6, hv⟩ := h
  refine ⟨hb, e1, e2, e3, e4, e5, by rw [appendBytes_buflen, appendBytes_buflen, e6], ?_⟩
  intro j hj hlt
  rw [appendBytes_buflen] at hlt
  rw [appendBytes_buf, appendBytes_buf, bufWrite_get, bufWrite_get, e6]
  split
  · rfl
  · exact hv j hj (by omega)

theorem SameStream.updateBytes {a b : State} (h : SameStream a b) (bs : List Byte) :
    SameStream (updateBytes bs a) (updateBytes bs b) := by
  rw [updateBytes_eq_foldl bs a h.le, updateBytes_eq_foldl bs b (h.buflen ▸ h.le)]
  induction bs generalizing a b with
  | nil => exact h
  | cons x xs ih =>
    apply ih
    unfold pushByte
    rw [← h.buflen]
    have hle := h.le
    split
    · next hf => exact (h.advance (by omega)).append [x] (by rw [advanceBlock_buflen]; simp; omega)
    · next hf => exact h.append [x] (by simp; omega)

theorem SameStream.finishHash {a b : State} (h : SameStream a b) : (finishHash a).h = (finishHash b).h := by
  have hfl : SameStream (flushLookahead a) (flushLookahead b) ∧ (flushLookahead a).buflen ≤ 64 := by
    have hle := h.le
    unfold flushLookahead
    rw [← h.buflen]
    split
    · exact ⟨h.advance (by omega), by rw [advanceBlock_buflen]; omega⟩
    · exact ⟨h, by omega⟩
  unfold Machine.finishHash
  generalize flushLookahead a = a at *
  generalize flushLookahead b = b at *
  obtain ⟨⟨hle, e1, e2, e3, e4, e5, e6, hv⟩, h64⟩ := hfl
  rw [closeHash_h, closeHash_h, ← e6, incT_t0, incT_t0, incT_t1, incT_t1, byteCount_congr e2 e3, e1, e5]
  congr 1
  apply Vector.ext
  intro i hi
  rw [frontBlock_get, frontBlock_get, zeroTail_buf, zeroTail_buf, bufWrite_get, bufWrite_get, ← e6]
  split
  · rfl
  · next hn =>
    rw [List.length_replicate] at hn
    exact hv i (by omega) (by omega)

theorem Alike.stream {a b : State} (h : Alike a b) (hp : a.phase = .absorb) (hle : a.buflen ≤ 128) : SameStream a b :=
  ⟨hle, h.chain (.inl hp), (h.counter hp).1, (h.counter hp).2, (h.flags hp).1, (h.flags hp).2, h.buflen hp,
    fun j hj hlt => h.valid hp ⟨j, hj⟩ hlt⟩
/-- Error entry, an answer to the host and the next input treat both states alike. -/
theorem Alike.raiseError {a b : State} (h : Alike a b) (c : ErrCode) (w : Word) :
    Alike (raiseError c w a) (raiseError c w b) := by
  constructor <;> simp [h.pending, h.readData]

theorem Alike.returnData {a b : State} (h : Alike a b) (v : Word) : Alike (returnData v a) (returnData v b) := by
  obtain ⟨e1, e2, e3, e4, e5, e6, e7, e8, e9, e10, e11, e12, e13⟩ := h
  exact ⟨e1, rfl, e3, e4, e5, e6, e7, e8, e9, e10, e11, e12, e13⟩

theorem Alike.dropInput {a b : State} (h : Alike a b) (rest : List Input) :
    Alike (dropInput rest a) (dropInput rest b) := by
  obtain ⟨e1, e2, e3, e4, e5, e6, e7, e8, e9, e10, e11, e12, e13⟩ := h
  exact ⟨rfl, rfl, e3, e4, e5, e6, e7, e8, e9, e10, e11, e12, e13⟩


end Sys2Proof.Machine
end

