-- ==== Sys2Proof/Laws/Compress.lean ====
section
/-! SUPPORT. The working vector of G (R174): a word just written, and the words beside it. -/

namespace Sys2Proof.Machine

theorem get_set_self (v : Vector Word 16) (i : Fin 16) (x : Word) : (v.set i x)[i] = x := by
  simp

theorem get_set_other (v : Vector Word 16) (i j : Fin 16) (x : Word) (h : i ≠ j) : (v.set i x)[j] = v[j] := by
  have : i.val ≠ j.val := fun h' => h (Fin.ext h')
  simp [Fin.getElem_fin, this]

end Sys2Proof.Machine
end

