-- ==== Sys2Proof/Laws/Invariant.lean ====
section
/-! SUPPORT. What each operation keeps of the invariant (R22 to R29). -/

namespace Sys2Proof.Machine

/-- A record update that leaves the ten elements alone keeps the invariant. -/
theorem Inv.of_sameCore {s t : State} (hi : Inv s) (h : SameCore t s) : Inv t := by
  obtain ⟨e1, e2, e3, e4, e5, e6, e7, e8, e9, e10, e11, e12⟩ := h
  have hb : byteCount t = byteCount s := byteCount_congr e2 e3
  constructor
  · rw [e7]; exact hi.buflen_le
  · rw [e11, e12]; exact hi.rx_closed_iff
  · rw [e11, e8]; exact hi.rx_only_absorb
  · rw [e9, e8]; exact hi.err_recorded_iff
  · rw [e8, e10]; exact hi.errword_clear
  · rw [e5]; exact hi.f1_zero
  · rw [e8, e4]; exact hi.f0_open
  · rw [e8, e4]; exact hi.f0_done
  · rw [e4]; exact hi.f0_legal
  · rw [e8, e7]; exact hi.buflen_done
  · rw [e8, e7, hb]; exact hi.count_done
  · rw [e8, hb]; exact hi.count_absorb
  · rw [e8, hb, e7]; exact hi.tail_kept
  · rw [e11, e12, e7]; exact hi.key_room
  · rw [e11, e7, e6]; exact hi.key_padding
  · rw [e11, hb]; exact hi.key_count

theorem Inv.raiseError {s : State} (hi : Inv s) (c : ErrCode) (w : Word) (hc : c ≠ .none) :
    Inv (raiseError c w s) := by
  constructor <;> simp [hi.buflen_le, hi.f1_zero, hc]
  simpa using hi.f0_legal

theorem Inv.initContext {s : State} (hi : Inv s) (hp : s.phase ≠ .error) (hl : s.rxLeft = 0) (nn kk : Byte) :
    Inv (initContext nn kk s) := by
  have ho := hi.rx_closed_iff.2 hl
  have he := hi.err_recorded_iff.2 hp
  have hw := hi.errword_clear hp
  constructor <;> simp [ho, hl, he, hw]

theorem Inv.startKey {s : State} (hi : Inv s) (hp : s.phase ≠ .error) (nn kk : Byte)
    (hk : legalKeyLen kk) : Inv (startReceive .key (kk.setWidth 24) (Machine.initContext nn kk s)) := by
  have he := hi.err_recorded_iff.2 hp
  have hw := hi.errword_clear hp
  have hn : (kk.setWidth 24).toNat = kk.toNat := by rw [BitVec.toNat_setWidth]; have := kk.isLt; omega
  have h0 : kk.setWidth 24 ≠ 0 := by
    intro h
    have := congrArg BitVec.toNat h
    rw [hn] at this
    have h1 := hk.1
    simp at this
    simp [this] at h1
  have h32 : kk.toNat ≤ 32 := hk.2
  have hb : byteCount (startReceive .key (kk.setWidth 24) (Machine.initContext nn kk s)) = 0 := byteCount_initContext nn kk s
  constructor <;> simp [he, hw, hn, hb, h32]
  simpa using h0
  

theorem Inv.startData {s : State} (hi : Inv s) (hp : s.phase = .absorb) (len : BitVec 24) (hl : len ≠ 0) :
    Inv (startReceive .data len s) := by
  have he := hi.err_recorded_iff
  have hw := hi.errword_clear (by rw [hp]; decide)
  have hb : byteCount (startReceive .data len s) = byteCount s := byteCount_congr rfl rfl
  constructor <;> simp [hi.buflen_le, hi.f1_zero, hp, hw, hb, hi.count_absorb hp]
  · simpa using hl
  · rw [he, hp]; decide
  · exact hi.f0_open (.inr hp)
  · simpa using hi.f0_legal
  · simpa using hi.tail_kept hp

/-- What every AdvanceBlock and every buffered byte keep of the invariant: the bound, whole blocks counted, a tail left. -/
structure Tailed (s : State) : Prop where
  le : s.buflen ≤ 128
  count : (byteCount s).toNat % 64 = 0
  tail : byteCount s = 0 ∨ 65 ≤ s.buflen

theorem Tailed.push {s : State} (h : Tailed s) (b : Byte) : Tailed (pushByte s b) := by
  obtain ⟨h1, h2, h3⟩ := h
  unfold pushByte
  split
  · next hf =>
    have hb : byteCount (appendBytes [b] (advanceBlock s)) = byteCount s + 64 := byteCount_advanceBlock s
    have hl : (appendBytes [b] (advanceBlock s)).buflen = 65 := by simp [hf]
    refine ⟨by omega, ?_, .inr (by omega)⟩
    rw [hb, BitVec.toNat_add]
    simp only [BitVec.ofNat_eq_ofNat, BitVec.toNat_ofNat]; omega
  · next hf =>
    have hb : byteCount (appendBytes [b] s) = byteCount s := byteCount_congr rfl rfl
    have hl : (appendBytes [b] s).buflen = s.buflen + 1 := by simp
    refine ⟨by omega, by rw [hb]; exact h2, ?_⟩
    rw [hb, hl]
    exact h3.imp id (by omega)

theorem Tailed.updateBytes {s : State} (h : Tailed s) (bs : List Byte) : Tailed (updateBytes bs s) := by
  rw [updateBytes_eq_foldl bs s h.le]
  induction bs generalizing s with
  | nil => exact h
  | cons b bs ih => exact ih (h.push b)

/-- The receiver after a payload word: open for the same command exactly while bytes are left. -/
theorem takePayload_rxOp_eq_none_iff (s : State) (h : s.rxOp ≠ .none) :
    (takePayload s).rxOp = .none ↔ (takePayload s).rxLeft = 0 := by
  rw [takePayload_rxOp, takePayload_rxLeft]
  split
  · next h0 => simp [h0]
  · next h0 => simp only [h, h0]

theorem takePayload_rxLeft_toNat (s : State) :
    (takePayload s).rxLeft.toNat = s.rxLeft.toNat - min 4 s.rxLeft.toNat := by
  have hlt := s.rxLeft.isLt
  rw [takePayload_rxLeft]
  simp only [BitVec.toNat_sub, BitVec.toNat_ofNat]; omega

theorem Inv.dataword {s : State} (hi : Inv s) (ho : s.rxOp = .data) (w : Word) :
    Inv (takePayload (updateBytes (payloadBytes s.rxLeft.toNat w) s)) := by
  have ha := hi.rx_only_absorb (by rw [ho]; decide)
  have ht : Tailed (updateBytes (payloadBytes s.rxLeft.toNat w) s) :=
    Tailed.updateBytes ⟨hi.buflen_le, hi.count_absorb ha, hi.tail_kept ha⟩ _
  have hrx := takePayload_rxOp_eq_none_iff (updateBytes (payloadBytes s.rxLeft.toNat w) s)
    (by rw [updateBytes_rxOp, ho]; decide)
  have hk : (takePayload (updateBytes (payloadBytes s.rxLeft.toNat w) s)).rxOp ≠ .key := by
    rw [takePayload_rxOp, updateBytes_rxOp, ho]; split <;> decide
  have e1 := updateBytes_phase (payloadBytes s.rxLeft.toNat w) s
  have e2 := updateBytes_errcode (payloadBytes s.rxLeft.toNat w) s
  have e3 := updateBytes_errword (payloadBytes s.rxLeft.toNat w) s
  have e4 := updateBytes_f0 (payloadBytes s.rxLeft.toNat w) s
  have e5 := updateBytes_f1 (payloadBytes s.rxLeft.toNat w) s
  generalize updateBytes (payloadBytes s.rxLeft.toNat w) s = u at *
  have hb : byteCount (takePayload u) = byteCount u := byteCount_congr rfl rfl
  constructor
  · exact ht.le
  · exact hrx
  · intro _; rw [takePayload_phase, e1, ha]
  · rw [takePayload_errcode, e2, takePayload_phase, e1]; exact hi.err_recorded_iff
  · rw [takePayload_errword, e3, takePayload_phase, e1]; exact hi.errword_clear
  · rw [takePayload_f1, e5]; exact hi.f1_zero
  · rw [takePayload_f0, e4, takePayload_phase, e1]; exact hi.f0_open
  · rw [takePayload_f0, e4, takePayload_phase, e1]; exact hi.f0_done
  · rw [takePayload_f0, e4]; exact hi.f0_legal
  · intro h; rw [takePayload_phase, e1, ha] at h; cases h
  · intro h; rw [takePayload_phase, e1, ha] at h; cases h
  · intro _; rw [hb]; exact ht.count
  · intro _; rw [hb]; exact ht.tail
  · intro h; exact absurd h hk
  · intro h; exact absurd h hk
  · intro h; exact absurd h hk

theorem Inv.keyword {s : State} (hi : Inv s) (ho : s.rxOp = .key) (w : Word) :
    Inv (closeKeyBlock (takePayload (appendBytes (payloadBytes s.rxLeft.toNat w) s))) := by
  have ha := hi.rx_only_absorb (by rw [ho]; decide)
  have hroom := hi.key_room ho
  have hcnt := hi.key_count ho
  have hpad := hi.key_padding ho
  have hlen := payloadBytes_length s.rxLeft.toNat w
  generalize payloadBytes s.rxLeft.toNat w = pl at *
  have hrx := takePayload_rxOp_eq_none_iff (appendBytes pl s) (by rw [appendBytes_rxOp, ho]; decide)
  have hrl := takePayload_rxLeft_toNat (appendBytes pl s)
  rw [appendBytes_rxLeft] at hrl
  have hbl : (takePayload (appendBytes pl s)).buflen = s.buflen + pl.length := rfl
  have hb : byteCount (closeKeyBlock (takePayload (appendBytes pl s))) = 0 := by
    rw [← hcnt]; exact byteCount_congr (by simp) (by simp)
  have hph : (closeKeyBlock (takePayload (appendBytes pl s))).phase = .absorb := by simp [ha]
  have hcb : (closeKeyBlock (takePayload (appendBytes pl s))).buflen =
      if (takePayload (appendBytes pl s)).rxLeft = 0 then 64 else s.buflen + pl.length := by
    rw [closeKeyBlock_buflen]; rfl
  have hop : (closeKeyBlock (takePayload (appendBytes pl s))).rxOp = .key →
      (takePayload (appendBytes pl s)).rxLeft ≠ 0 := by
    intro h h0
    rw [closeKeyBlock_rxOp, hrx.2 h0] at h; cases h
  constructor
  · rw [hcb]; split <;> omega
  · rw [closeKeyBlock_rxOp, closeKeyBlock_rxLeft]; exact hrx
  · intro _; exact hph
  · simpa using hi.err_recorded_iff
  · simpa using hi.errword_clear
  · simpa using hi.f1_zero
  · simpa using hi.f0_open
  · simpa using hi.f0_done
  · simpa using hi.f0_legal
  · intro h; rw [hph] at h; cases h
  · intro h; rw [hph] at h; cases h
  · intro _; rw [hb]; rfl
  · intro _; exact .inl hb
  · intro h; rw [hcb, if_neg (hop h), closeKeyBlock_rxLeft, hrl]; omega
  · intro h j h1 h2
    rw [hcb, if_neg (hop h)] at h1
    rw [closeKeyBlock_buf, takePayload_buf, appendBytes_buf]
    refine (bufWrite_get _ _ _ j.val j.isLt).trans ?_
    rw [if_neg (by omega)]
    exact hpad j (by omega) h2
  · intro _; exact hb

theorem Inv.finishHash {s : State} (hi : Inv s) (hp : s.phase = .absorb) (hl : s.rxLeft = 0) : Inv (finishHash s) := by
  have ho := hi.rx_closed_iff.2 hl
  have hle := hi.buflen_le
  have hc := hi.count_absorb hp
  have hbl : (Machine.finishHash s).buflen = if 64 < s.buflen then s.buflen - 64 else s.buflen := by
    rw [Machine.finishHash, closeHash_buflen, flushLookahead]; split <;> simp
  have hcount : (byteCount (Machine.finishHash s)).toNat % 64 = (Machine.finishHash s).buflen % 64 := by
    rw [hbl, Machine.finishHash, byteCount_closeHash, byteCount_incT, flushLookahead]
    split
    · rw [byteCount_advanceBlock, advanceBlock_buflen]
      simp only [BitVec.toNat_add, BitVec.ofNat_eq_ofNat, BitVec.toNat_ofNat]; omega
    · simp only [BitVec.toNat_add, BitVec.toNat_ofNat]; omega
  constructor <;> try simp only [finishHash_phase, finishHash_f0, finishHash_f1, finishHash_errcode, finishHash_errword,
    finishHash_rxOp, finishHash_rxLeft, ho, hl]
  · rw [hbl]; split <;> omega
  · exact fun h => absurd rfl h
  · rw [hi.err_recorded_iff, hp]; decide
  · intro _; exact hi.errword_clear (by rw [hp]; decide)
  · exact hi.f1_zero
  · intro h; rcases h with h | h <;> cases h
  · intro _; rfl
  · exact .inr rfl
  · intro _; rw [hbl]; split <;> omega
  · intro _; exact hcount
  all_goals (intro h; cases h)

end Sys2Proof.Machine
end

