-- ==== Sys2Proof/Laws/Payload.lean ====
section
/-! SUPPORT. Whole payloads (R106, R132): what the data words of one UPDATE, the key words of one INIT_KEYED, and the words
of a message leave. -/

namespace Sys2Proof.Machine

/-- One payload word takes min(4, left) bytes and keeps or closes the receiver (R106, R132). -/
theorem takePayload_startReceive (op : RxOp) (left : BitVec 24) (s : State) :
    takePayload (startReceive op left s) =
      startReceive (if left.toNat ≤ 4 then .none else op) (BitVec.ofNat 24 (left.toNat - 4)) s := by
  have hlt := left.isLt
  have h1 : left - BitVec.ofNat 24 (min 4 left.toNat) = BitVec.ofNat 24 (left.toNat - 4) := by
    apply BitVec.eq_of_toNat_eq
    simp only [BitVec.toNat_sub, BitVec.toNat_ofNat]; omega
  have h2 : BitVec.ofNat 24 (left.toNat - 4) = 0 ↔ left.toNat ≤ 4 := by
    rw [BitVec.toNat_eq]; simp only [BitVec.toNat_ofNat, BitVec.ofNat_eq_ofNat]; omega
  unfold takePayload startReceive
  simp only [h1, h2]

/-- The data words of one UPDATE, all of them (R132). -/
theorem cmdWrites_data (ws : List Word) (left : BitVec 24) (s : State) (hp : s.phase ≠ .error) (hb : s.buflen ≤ 128)
    (hl : left ≠ 0) (hn : ws.length = (left.toNat + 3) / 4) :
    cmdWrites ws (startReceive .data left s) =
      .next (startReceive .none 0 (updateBytes ((ws.flatMap lanes).take left.toNat) s)) := by
  induction ws generalizing left s with
  | nil =>
    exfalso; apply hl; apply BitVec.eq_of_toNat_eq
    simp only [List.length_nil, BitVec.ofNat_eq_ofNat, BitVec.toNat_ofNat] at hn ⊢; omega
  | cons w ws ih =>
    have hlt := left.isLt
    rw [cmdWrites, cmdWrite_data w (startReceive .data left s) hp hl rfl, exec_dataword w (startReceive .data left s) hp,
      updateBytes_startReceive, takePayload_startReceive, startReceive_rxLeft, take_flatMap_lanes_cons]
    have hch : ∀ a b, updateBytes (a ++ b) s = updateBytes b (updateBytes a s) := by
      intro a b
      rw [updateBytes_eq_foldl b _ (updateBytes_buflen_le a s hb), updateBytes_eq_foldl _ s hb,
        updateBytes_eq_foldl _ s hb, List.foldl_append]
    rw [hch, List.length_cons] at *
    simp only
    split
    · next h4 =>
      have hws : ws = [] := List.eq_nil_of_length_eq_zero (by omega)
      have h0 : left.toNat - 4 = 0 := by omega
      subst hws
      rw [h0]; rfl
    · next h4 =>
      have hnat : (BitVec.ofNat 24 (left.toNat - 4)).toNat = left.toNat - 4 := by rw [BitVec.toNat_ofNat]; omega
      rw [ih _ _ (by rw [updateBytes_phase]; exact hp) (updateBytes_buflen_le _ s hb) ?_ (by rw [hnat]; omega),
        hnat]
      intro h0
      have := congrArg BitVec.toNat h0
      rw [hnat] at this
      simp only [BitVec.ofNat_eq_ofNat, BitVec.toNat_ofNat] at this; omega

/-- The key words of one INIT_KEYED, all of them (R106). -/
theorem cmdWrites_key (ws : List Word) (left : BitVec 24) (s : State) (hp : s.phase ≠ .error)
    (hl : left ≠ 0) (hn : ws.length = (left.toNat + 3) / 4) :
    cmdWrites ws (startReceive .key left s) =
      .next (startReceive .none 0 { appendBytes ((ws.flatMap lanes).take left.toNat) s with buflen := 64 }) := by
  induction ws generalizing left s with
  | nil =>
    exfalso; apply hl; apply BitVec.eq_of_toNat_eq
    simp only [List.length_nil, BitVec.ofNat_eq_ofNat, BitVec.toNat_ofNat] at hn ⊢; omega
  | cons w ws ih =>
    have hlt := left.isLt
    rw [cmdWrites, cmdWrite_key w (startReceive .key left s) hp hl rfl, exec_keyword w (startReceive .key left s) hp]
    have hs : appendBytes (payloadBytes (startReceive RxOp.key left s).rxLeft.toNat w) (startReceive .key left s) =
        startReceive .key left (appendBytes (payloadBytes left.toNat w) s) := rfl
    rw [hs, takePayload_startReceive, take_flatMap_lanes_cons, appendBytes_append, List.length_cons] at *
    simp only
    split
    · next h4 =>
      have hws : ws = [] := List.eq_nil_of_length_eq_zero (by omega)
      have h0 : left.toNat - 4 = 0 := by omega
      subst hws
      rw [h0]; rfl
    · next h4 =>
      have hnat : (BitVec.ofNat 24 (left.toNat - 4)).toNat = left.toNat - 4 := by rw [BitVec.toNat_ofNat]; omega
      have hne : BitVec.ofNat 24 (left.toNat - 4) ≠ 0 := by
        intro h0
        have := congrArg BitVec.toNat h0
        rw [hnat] at this
        simp only [BitVec.ofNat_eq_ofNat, BitVec.toNat_ofNat] at this; omega
      rw [closeKeyBlock, if_neg (by rw [startReceive_rxLeft]; exact hne)]
      rw [ih _ (appendBytes (payloadBytes left.toNat w) s) hp hne (by rw [hnat]; omega), hnat]

/-- A key block in a fresh context is the bytes of the zero-padded key (R107). -/
theorem key_block_padded (key : List Byte) (s : State) (hk : key.length ≤ 64) (h0 : s.buflen = 0)
    (hb : s.buf = Vector.replicate 128 0) :
    { appendBytes key s with buflen := 64 } = updateBytes (key ++ List.replicate (64 - key.length) 0) s := by
  rw [updateBytes_room _ s (by simp; omega), appendBytes_append]
  have h2 : bufWrite (bufWrite s.buf 0 key) key.length (List.replicate (64 - key.length) 0) = bufWrite s.buf 0 key := by
    apply Vector.ext; intro j hj
    rw [bufWrite_get, List.length_replicate]
    split
    · next h =>
      rw [bufWrite_get, if_neg (by omega), hb, Vector.getElem_replicate]
      exact List.getD_replicate _ (by omega)
    · rfl
  unfold appendBytes
  simp only [h0, Nat.zero_add, h2, List.length_replicate]
  congr 1
  omega

/-! ## Whole messages -/

/-- The cut of a message does not depend on how many turns it is given, once there are enough. -/
theorem updateChunks_turns (turns turns' : Nat) (bs : List Byte) (h : bs.length ≤ turns) (h' : bs.length ≤ turns') :
    updateChunks turns bs = updateChunks turns' bs := by
  induction turns generalizing turns' bs with
  | zero =>
    have : bs = [] := List.eq_nil_of_length_eq_zero (by omega)
    subst this
    cases turns' <;> simp [updateChunks]
  | succ n ih =>
    cases turns' with
    | zero =>
      have : bs = [] := List.eq_nil_of_length_eq_zero (by omega)
      subst this
      simp [updateChunks]
    | succ m =>
      rw [updateChunks, updateChunks]
      split
      · rfl
      · rw [ih m _ (by rw [List.length_drop, Config.maxUpdate] at *; omega)
          (by rw [List.length_drop, Config.maxUpdate] at *; omega)]

theorem cmdWrites_append (a b : List Word) (s : State) :
    cmdWrites (a ++ b) s = match cmdWrites a s with
      | .next t => cmdWrites b t
      | .fault r => .fault r
      | .refused r => .refused r := by
  induction a generalizing s with
  | nil => rfl
  | cons w ws ih =>
    rw [List.cons_append, cmdWrites, cmdWrites]
    split
    · next h => exact ih _
    · rfl
    · rfl

theorem cmdWrites_append_next {a : List Word} {s t : State} (b : List Word) (h : cmdWrites a s = .next t) :
    cmdWrites (a ++ b) s = cmdWrites b t := by
  rw [cmdWrites_append, h]

/-- UPDATE of a piece that LEN can announce, with the packed words of its bytes. -/
theorem cmdWrites_updateWords (bs : List Byte) (s : State) (hp : s.phase = .absorb) (hl : s.rxLeft = 0)
    (hb : s.buflen ≤ 128) (hn : bs.length < 2 ^ 24) :
    ∃ op, cmdWrites (updateWords bs) s = .next (startReceive op 0 (updateBytes bs s)) := by
  have he : s.phase ≠ .error := by rw [hp]; decide
  have hnat : (BitVec.ofNat 24 bs.length).toNat = bs.length := by rw [BitVec.toNat_ofNat]; omega
  rw [updateWords, cmdWrites, cmdWrite_encode _ s rfl he hl]
  by_cases h0 : bs = []
  · subst h0
    refine ⟨s.rxOp, ?_⟩
    rw [List.length_nil, show (BitVec.ofNat 24 0) = 0 from rfl, exec_update_zero s hp]
    simp only [packWords, cmdWrites]
    congr 1
    rw [updateBytes_room _ s (by rw [List.length_nil]; omega), appendBytes_nil]
    unfold startReceive
    rw [← hl]
  · have hne : BitVec.ofNat 24 bs.length ≠ 0 := by
      intro h
      have := congrArg BitVec.toNat h
      rw [hnat] at this
      exact h0 (List.eq_nil_of_length_eq_zero (by simpa using this))
    refine ⟨.none, ?_⟩
    rw [exec_update _ s hp hne]
    simp only
    rw [cmdWrites_data _ _ s he hb hne (by rw [hnat, packWords_length]), hnat, packWords_lanes]

/-- The words of a whole message, in as many pieces as it takes (R82, R136). -/
theorem cmdWrites_updateBytesWords (bs : List Byte) (s : State) (hp : s.phase = .absorb) (hl : s.rxLeft = 0)
    (hb : s.buflen ≤ 128) :
    ∃ op, cmdWrites (updateBytesWords bs) s = .next (startReceive op 0 (updateBytes bs s)) := by
  unfold updateBytesWords
  suffices h : ∀ turns (bs : List Byte) (s : State), bs.length ≤ turns → s.phase = .absorb → s.rxLeft = 0 →
      s.buflen ≤ 128 →
      ∃ op, cmdWrites ((updateChunks turns bs).flatMap updateWords) s = .next (startReceive op 0 (updateBytes bs s)) from
    h _ bs s (Nat.le_refl _) hp hl hb
  intro turns
  induction turns with
  | zero =>
    intro bs s hn hp hl hb
    rw [updateChunks, List.flatMap_singleton]
    exact cmdWrites_updateWords bs s hp hl hb (by omega)
  | succ turns ih =>
    intro bs s hn hp hl hb
    rw [updateChunks]
    split
    · next h =>
      rw [List.flatMap_singleton]
      exact cmdWrites_updateWords bs s hp hl hb (by rw [Config.maxUpdate] at h; omega)
    · next h =>
      rw [Config.maxUpdate] at h
      have hlen : (bs.take Config.maxUpdate).length = Config.maxUpdate := by
        rw [List.length_take, Config.maxUpdate]; omega
      obtain ⟨op, h1⟩ := cmdWrites_updateWords (bs.take Config.maxUpdate) s hp hl hb (by rw [hlen, Config.maxUpdate]; omega)
      have hb' := updateBytes_buflen_le (bs.take Config.maxUpdate) s hb
      obtain ⟨op', h2⟩ := ih (bs.drop Config.maxUpdate)
        (startReceive op 0 (updateBytes (bs.take Config.maxUpdate) s))
        (by rw [List.length_drop, Config.maxUpdate]; omega)
        (by rw [startReceive_phase, updateBytes_phase]; exact hp) rfl hb'
      refine ⟨op', ?_⟩
      rw [List.flatMap_cons, cmdWrites_append_next _ h1, h2, updateBytes_startReceive]
      congr 1
      rw [updateBytes_eq_foldl _ (updateBytes _ s) hb', updateBytes_eq_foldl _ s hb, ← List.foldl_append,
        List.take_append_drop, ← updateBytes_eq_foldl _ s hb]
      rfl

end Sys2Proof.Machine
end

