-- ==== Sys2Proof/Laws/System.lean ====
section
/-! SUPPORT. The windows of a platform (R65): what their arrangement says, and that an address lies in one of them at
most. -/

namespace Sys2Proof.Machine

theorem windowsWf_iff (xs : List Window) :
    windowsWf xs = true ↔ xs ≠ [] ∧ (∀ x ∈ xs, x.base % 64 = 0) ∧ (xs.map Window.base).Nodup := by
  unfold windowsWf basesWf
  rw [Bool.and_eq_true, Bool.and_eq_true, decide_eq_true_eq, decide_eq_true_eq, List.all_eq_true, and_assoc]
  have h1 : xs.map Window.base ≠ [] ↔ xs ≠ [] := not_congr List.map_eq_nil_iff
  have h2 : (∀ b ∈ xs.map Window.base, decide (b % Config.windowBytes = 0) = true) ↔ ∀ x ∈ xs, x.base % 64 = 0 :=
    List.forall_mem_map.trans (forall₂_congr fun _ _ => decide_eq_true_iff)
  rw [h1, h2]

theorem holds_iff (x : Window) (addr : Nat) : x.holds addr = true ↔ x.base ≤ addr ∧ addr < x.base + 64 := by
  unfold Window.holds
  rw [Bool.and_eq_true, decide_eq_true_eq, decide_eq_true_eq]
  exact Iff.rfl

/-- Two aligned windows that hold one address have one base. -/
theorem holds_unique (x y : Window) (addr : Nat) (h1 : x.base % 64 = 0) (h2 : y.base % 64 = 0)
    (h3 : x.holds addr = true) (h4 : y.holds addr = true) : x.base = y.base := by
  rw [holds_iff] at h3 h4
  omega

theorem platformStart_bases (bases : List Nat) : (platformStart bases).map Window.base = bases := by
  simp [platformStart, Function.comp_def]

end Sys2Proof.Machine
end

