-- ==== Sys2Proof/Tests/Slice0.lean ====
section
/-! SUPPORT. The model's own tests: expected values are the spec's examples and tables, by section and rule; then a witness
for every statement that has hypotheses. -/

namespace Sys2Proof.Machine.Tests

open Sys2Proof Sys2Proof.Machine

/-- What a test reads from the next state an outcome gives. -/
def reads {α : Type} (r : Result) (g : State → α) : Option α :=
  match r with
  | .next t => some (g t)
  | .fault _ => none
  | .refused _ => none

/-! ## Legal operands: an ill-formed term for each check (R72, R73) -/

theorem test_wf_init_zero : (Instr.init 0).wellFormed = false := by decide
theorem test_wf_init_33 : (Instr.init 33).wellFormed = false := by decide
theorem test_wf_initKeyed_size_0 : (Instr.initKeyed 0 1).wellFormed = false := by decide
theorem test_wf_initKeyed_size_33 : (Instr.initKeyed 33 1).wellFormed = false := by decide
theorem test_wf_initKeyed_key_0 : (Instr.initKeyed 32 0).wellFormed = false := by decide
theorem test_wf_initKeyed_key_33 : (Instr.initKeyed 32 33).wellFormed = false := by decide
theorem test_wf_accepts : (Instr.init 1).wellFormed = true ∧ (Instr.init 32).wellFormed = true ∧
    (Instr.initKeyed 32 1).wellFormed = true ∧ (Instr.initKeyed 1 32).wellFormed = true ∧
    (Instr.update 0).wellFormed = true ∧ (Instr.update 16777215).wellFormed = true ∧
    (Instr.keyword 0).wellFormed = true ∧ (Instr.dataword 0).wellFormed = true ∧ Instr.finalize.wellFormed = true := by
  decide

/-! ## Decoding words written out from the patterns of R72 to R76 -/

/-- Bits 31..16 zero, NN = 00100000, OPCODE = 00000001 (R72). -/
theorem test_decode_init : decodeHeader 0b00000000000000000010000000000001 = .ok (.init 32) := by decide
/-- Bits 31..24 zero, KK = 00000001, NN = 00100000, OPCODE = 00000010 (R73). -/
theorem test_decode_initKeyed : decodeHeader 0b00000000000000010010000000000010 = .ok (.initKeyed 32 1) := by decide
/-- LEN = 2^24 - 1, OPCODE = 00000011 (R74). -/
theorem test_decode_update : decodeHeader 0b11111111111111111111111100000011 = .ok (.update 16777215) := by decide
/-- OPCODE = 00000100 (R75). -/
theorem test_decode_finalize : decodeHeader 0b00000000000000000000000000000100 = .ok .finalize := by decide
/-- Payload words are taken whole, also those that spell a header (R70, R76). -/
theorem test_decode_payload : decodeWord .key 0b00000000000000000000000000000100 = .ok (.keyword 4) ∧
    decodeWord .data 0b00000000000000000000000000000100 = .ok (.dataword 4) := by decide
/-- OPCODE 0x00 and 0x05 (section 8 of 95_test_vectors.md). -/
theorem test_decode_reserved_opcode : decodeHeader 0x00000000 = .error .reservedOpcode ∧
    decodeHeader 0x00000105 = .error .reservedOpcode ∧ decodeHeader 0x000000FF = .error .reservedOpcode := by decide
/-- One reserved bit set in each format that has some (R202, R207). -/
theorem test_decode_reserved_bits : decodeHeader 0x00012001 = .error .reservedBits ∧
    decodeHeader 0x01202002 = .error .reservedBits ∧ decodeHeader 0x00000104 = .error .reservedBits := by decide
/-- R83's words the other way round. -/
theorem test_encode : encode (.init 16) = 0x00001001 ∧ encode (.initKeyed 32 32) = 0x00202002 ∧
    encode (.update 65) = 0x00004103 ∧ encode .finalize = 0x00000004 ∧ encode (.dataword 0x00636261) = 0x00636261 := by
  decide
theorem test_decodeTableWord : decodeTableWord 32 0x00002001 = some (.init 32) ∧
    decodeTableWord 32 0x00000002 = some (.initKeyed 0 0) ∧ decodeTableWord 32 0 = none := by decide

/-! ## Small states -/

/-- The context right after `init 32`, its chain as R104 gives it, with some bytes in the buffer. -/
def open32 (bytes : List Byte) : State :=
  { State.reset with
    phase := .absorb
    h := #v[0x6B08E647, 0xBB67AE85, 0x3C6EF372, 0xA54FF53A, 0x510E527F, 0x9B05688C, 0x1F83D9AB, 0x5BE0CD19]
    buf := bufWrite (Vector.replicate 128 0) 0 bytes
    buflen := bytes.length }

/-- That context while `left` bytes are pending for `op`. -/
def receiving (op : RxOp) (left : BitVec 24) (bytes : List Byte) : State := startReceive op left (open32 bytes)

/-- The core after the hash of "abc" (P2). -/
def finished : State :=
  { open32 [0x61, 0x62, 0x63] with
    phase := .done, t0 := 3, f0 := 0xFFFFFFFF
    h := #v[0x8C5E8C50, 0xE2147C32, 0xA32BA7E1, 0x2F45EB4E, 0x208B4537, 0x293AD69E, 0x4C9B994D, 0x82596786] }

/-- The core after the error of P5's first line. -/
def failed : State := raiseError .sequence 0x00000303 State.reset

/-- A core with an input pending. -/
def withInput (i : Input) (s : State) : State := { s with pending := [i] }

/-! ## One instruction each -/

/-- The example of R104. -/
theorem test_init : reads (exec (.init 32) State.reset) (fun t => (t.statusWord, t.h)) =
    some (0x00000001, #v[0x6B08E647, 0xBB67AE85, 0x3C6EF372, 0xA54FF53A, 0x510E527F, 0x9B05688C, 0x1F83D9AB, 0x5BE0CD19]) := by
  decide +kernel
/-- R203's example. -/
theorem test_init_33 : reads (exec (.init 33) State.reset) (fun t => (t.statusWord, t.errword)) =
    some (0x00000023, 0x00002101) := by decide +kernel
/-- The example of R105. -/
theorem test_initKeyed : reads (exec (.initKeyed 32 32) State.reset) (fun t => (t.statusWord, t.h[0], t.rxOp, t.rxLeft)) =
    some (0x00002001, 0x6B08C647, .key, 32) := by decide +kernel
/-- Both sizes out of range: the digest size is reported (R207). -/
theorem test_initKeyed_0_0 : reads (exec (.initKeyed 0 0) State.reset) (fun t => (t.statusWord, t.errword)) =
    some (0x00000023, 0x00000002) := by decide +kernel
/-- The example of R106: lanes 1..3 are ignored. -/
theorem test_keyword : reads (exec (.keyword 0xDEADBE41) (receiving .key 1 []))
    (fun t => (t.statusWord, t.buf[0], t.buf[1], t.buflen, t.rxOp)) = some (0x00000001, 0x41, 0, 64, .none) := by
  decide +kernel
/-- P3's second key word: four bytes behind the first four. -/
theorem test_keyword_more : reads (exec (.keyword 0x07060504) (receiving .key 28 [0, 1, 2, 3]))
    (fun t => (t.statusWord, t.buf[4], t.buf[7], t.buflen, t.rxOp)) = some (0x00001801, 4, 7, 8, .key) := by
  decide +kernel
/-- Section 5.6 of 95_test_vectors.md: in ABSORB and from IDLE. -/
theorem test_update : reads (exec (.update 3) (open32 [])) State.statusWord = some 0x00000301 := by decide +kernel
theorem test_update_idle : reads (exec (.update 3) State.reset) (fun t => (t.statusWord, t.errword)) =
    some (0x00000043, 0x00000303) := by decide +kernel
/-- Section 5.6: lane 3 (FF) is ignored. -/
theorem test_dataword : reads (exec (.dataword 0xFF636261) (receiving .data 3 []))
    (fun t => (t.statusWord, t.buf[2], t.buf[3], t.buflen)) = some (0x00000001, 0x63, 0, 3) := by decide +kernel
/-- The example of R132: with buflen 125 the word 0x807F7E7D advances once, and byte 80 stands at index 64. -/
theorem test_dataword_advance : reads (exec (.dataword 0x807F7E7D) (receiving .data 4 (List.replicate 125 7)))
    (fun t => (t.buflen, t.t0, t.buf[60], t.buf[61], t.buf[63], t.buf[64])) = some (65, 64, 7, 0x7D, 0x7F, 0x80) := by
  decide +kernel
/-- The example of R150, with the chain of R179's. -/
theorem test_finalize : reads (exec .finalize (open32 [0x61, 0x62, 0x63])) (fun t => (t.statusWord, t.t0, t.t1, t.h)) =
    some (0x00000002, 3, 0,
      #v[0x8C5E8C50, 0xE2147C32, 0xA32BA7E1, 0x2F45EB4E, 0x208B4537, 0x293AD69E, 0x4C9B994D, 0x82596786]) := by
  decide +kernel
/-- Section 6.3: FINALIZE from IDLE. -/
theorem test_finalize_idle : reads (exec .finalize State.reset) (fun t => (t.statusWord, t.errword)) =
    some (0x00000043, 0x00000004) := by decide +kernel

/-! ## The window -/

/-- Section 8: illegal headers, and what an error keeps. -/
theorem test_illegal : reads (cmdWrite 0x00012001 State.reset) (fun t => (t.statusWord, t.errword)) =
    some (0x00000013, 0x00012001) ∧
    reads (cmdWrite 0x00000104 (open32 [])) (fun t => (t.statusWord, t.errword)) = some (0x00000013, 0x00000104) := by
  decide +kernel
theorem test_error_is_kept : reads (cmdWrite 0x00002001 failed) (fun t => (t.statusWord, t.errword)) =
    some (0x00000043, 0x00000303) := by decide +kernel
/-- Section 6.3: a FINALIZE word while three bytes are pending enters the message. -/
theorem test_payload_is_no_header : reads (cmdWrite 0x00000004 (receiving .data 3 []))
    (fun t => (t.phase, t.buf[0], t.buflen)) = some (.absorb, 4, 3) := by decide +kernel
/-- Section 6.3: DIGEST0 in DONE, in ABSORB, and DIGEST7 in ERROR. -/
theorem test_digest_done : reads (busRead .word 0x20 finished) (fun t => (t.readData, t.statusWord)) =
    some (some 0x8C5E8C50, 0x00000002) := by decide +kernel
theorem test_digest_absorb : reads (busRead .word 0x20 (open32 [])) (fun t => (t.readData, t.statusWord, t.errword)) =
    some (some 0, 0x00000053, 0x00000020) := by decide +kernel
theorem test_digest_error : reads (busRead .word 0x3C failed) (fun t => (t.readData, t.statusWord)) =
    some (some 0, 0x00000043) := by decide +kernel
theorem test_refusals : busRead .byte 0x04 State.reset = .refused .subWordAccess ∧
    busWrite .word 0x02 0 State.reset = .refused .misalignedAccess ∧
    busRead .word 0x40 State.reset = .refused .outsideWindow := ⟨rfl, rfl, rfl⟩
/-- R230: reset out of ERROR (the last row of section 8). -/
theorem test_reset : reads (step (withInput .reset failed)) (fun t => (t.statusWord, t.errword)) = some (0, 0) := by
  decide +kernel
/-- The host's probe: `init 32` as the next step after reset. -/
theorem test_withFetchWord : reads (step (State.reset.withFetchWord 32 0x00002001)) State.statusWord =
    some 0x00000001 := by decide +kernel
/-- Two cores (R214), both from reset state: the access reaches the second only. -/
theorem test_instances : (match platformRun [0x1000, 0x1040] [.write .word 0x1040 0x00000303] with
    | .next ys => ys.map fun y => (y.base, y.core.statusWord)
    | _ => []) = [(0x1000, 0), (0x1040, 0x00000043)] := by decide +kernel

/-! ## Arithmetic -/

/-- The examples of R172. -/
theorem test_rotr : rotr32 0x12345678 16 = 0x56781234 ∧ rotr32 0x12345678 12 = 0x67812345 ∧
    rotr32 0x12345678 8 = 0x78123456 ∧ rotr32 0x12345678 7 = 0xF02468AC ∧ rotr32 1 7 = 0x02000000 := by decide
/-- Section 7.1, third row. -/
theorem test_mixG : (fun v : Vector Word 16 => (v[0], v[4], v[8], v[12]))
      (mixG #v[0, 0, 0, 0, 4, 0, 0, 0, 8, 0, 0, 0, 12, 0, 0, 0] 0 4 8 12 0x11111111 0x22222222) =
    (0x450444C8, 0xFFF7787F, 0xEA6D2E6E, 0xD9541D55) := by decide +kernel
/-- Section 7.1, the all-ones row. -/
theorem test_mixG_ones : (fun v : Vector Word 16 => (v[0], v[4], v[8], v[12]))
      (mixG (Vector.replicate 16 0xFFFFFFFF) 0 4 8 12 0xFFFFFFFF 0xFFFFFFFF) =
    (0x000FFFDC, 0x3DB81BE4, 0xDC020DFE, 0xDC000DFF) := by decide +kernel
/-- The example of R176. -/
theorem test_workInit : (fun v : Vector Word 16 => (v[12], v[13], v[14], v[15]))
      (workInit (Vector.replicate 8 0) 3 0 0xFFFFFFFF 0) =
    (0x510E527C, 0x9B05688C, 0xE07C2654, 0x5BE0CD19) := by decide +kernel
/-- Section 5.5: the carry into t[1], and the wrap. -/
theorem test_incT : (fun t : State => (t.t0, t.t1)) (incT 64 { State.reset with t0 := 0xFFFFFFC0 }) = (0, 1) ∧
    (fun t : State => (t.t0, t.t1)) (incT 1 { State.reset with t0 := 0xFFFFFFFF, t1 := 0xFFFFFFFF }) = (0, 0) := by
  decide +kernel
/-- The examples of R101 and R175. -/
theorem test_loads : paramWord 32 32 0 = 0x01012020 ∧ paramWord 32 0 0 = 0x01010020 ∧ paramWord 32 0 7 = 0 ∧
    wordOfBytes 0x61 0x62 0x63 0 = 0x00636261 := by decide +kernel
/-- The example of R151. -/
theorem test_digestBytes : (digestBytes finished.h).take 4 = [0x50, 0x8C, 0x5E, 0x8C] ∧
    hostDigest 3 finished.h = [0x50, 0x8C, 0x5E] := by decide +kernel

/-! ## The assembler notation (R81, R82) -/

theorem test_readLine : readLine "init 32        ; 00002001".toList = some (some (.init 32)) ∧
    readLine "initk 32, 0x1".toList = some (some (.initk 32 1)) ∧
    readLine "rd DIGEST7".toList = some (some (.rd (.digest 7))) ∧ readLine "; nothing".toList = some none ∧
    readLine "nop".toList = none := by decide
theorem test_inputs : (AsmLine.bytes [0x61, 0x62, 0x63]).inputs = some [.write .word 0 0x00636261] ∧
    (AsmLine.updateStr ['a', 'b', 'c']).inputs = some [.write .word 0 0x00000303, .write .word 0 0x00636261] ∧
    (AsmLine.initkKey 32 [0x41]).inputs = some [.write .word 0 0x00012002, .write .word 0 0x00000041] ∧
    (AsmLine.rd .errword).inputs = some [.read .word 8] := by decide

/-! ## Witnesses: states and operands that meet the hypotheses of each statement, at the ends of their ranges -/

theorem reset_inv : Inv State.reset := by
  constructor <;> simp [State.reset, byteCount]

/-- Pending inputs take no part in the invariant. -/
theorem withInput_inv {s : State} (i : Input) (h : Inv s) : Inv (withInput i s) :=
  h.of_sameCore ⟨rfl, rfl, rfl, rfl, rfl, rfl, rfl, rfl, rfl, rfl, rfl, rfl⟩

theorem witness_ResetGivesTheTable : ∃ (s : State) (rest : List Input), s.pending = .reset :: rest :=
  ⟨withInput .reset failed, [], rfl⟩

theorem witness_CoreWaitsWithNoInput : ∃ s : State, s.pending = [] := ⟨State.reset, rfl⟩

theorem witness_StepPerformsTheNextInput :
    (∃ (s : State) (rest : List Input) (w : Word), s.pending = .write .word 0x00 w :: rest) ∧
    (∃ (s : State) (rest : List Input) (size : AccessSize) (off : Nat) (w : Word),
      s.pending = .write size off w :: rest) ∧
    (∃ (s : State) (rest : List Input) (size : AccessSize) (off : Nat), s.pending = .read size off :: rest) :=
  ⟨⟨withInput (.write .word 0x00 4) State.reset, [], 4, rfl⟩,
    ⟨withInput (.write .half 0x3E 4) State.reset, [], .half, 0x3E, 4, rfl⟩,
    ⟨withInput (.read .word 0x20) State.reset, [], .word, 0x20, rfl⟩⟩

theorem witness_StepRunsTheDecodedInstruction :
    (∃ (s : State) (w : Word) (rest : List Input) (i : Instr), s.pending = .write .word 0x00 w :: rest ∧
      s.phase ≠ .error ∧ s.rxLeft = 0 ∧ decodeWord .header w = .ok i) ∧
    (∃ (s : State) (w : Word) (rest : List Input) (i : Instr), s.pending = .write .word 0x00 w :: rest ∧
      s.phase ≠ .error ∧ s.rxLeft ≠ 0 ∧ s.rxOp = .key ∧ decodeWord .key w = .ok i) ∧
    (∃ (s : State) (w : Word) (rest : List Input) (i : Instr), s.pending = .write .word 0x00 w :: rest ∧
      s.phase ≠ .error ∧ s.rxLeft ≠ 0 ∧ s.rxOp = .data ∧ decodeWord .data w = .ok i) :=
  ⟨⟨withInput (.write .word 0x00 0x00002001) State.reset, 0x00002001, [], .init 32, rfl, by decide, rfl, by decide⟩,
    ⟨withInput (.write .word 0x00 4) (receiving .key 32 []), 4, [], .keyword 4, rfl, by decide, by decide, rfl, rfl⟩,
    ⟨withInput (.write .word 0x00 4) (receiving .data 1 []), 4, [], .dataword 4, rfl, by decide, by decide, rfl, rfl⟩⟩

theorem witness_CmdWordIsReadFromTheState :
    (∃ s : State, s.phase = .error) ∧ (∃ s : State, s.phase ≠ .error ∧ s.rxLeft ≠ 0 ∧ s.rxOp = .key) ∧
    (∃ s : State, s.phase ≠ .error ∧ s.rxLeft ≠ 0 ∧ s.rxOp = .data) ∧
    (∃ (s : State) (w : Word) (i : Instr), s.phase ≠ .error ∧ s.rxLeft = 0 ∧ decodeHeader w = .ok i) ∧
    (∃ (s : State) (w : Word) (r : DecodeReject), s.phase ≠ .error ∧ s.rxLeft = 0 ∧ decodeHeader w = .error r) :=
  ⟨⟨failed, rfl⟩, ⟨receiving .key 1 [], by decide, by decide, rfl⟩,
    ⟨receiving .data 16777215 [], by decide, by decide, rfl⟩,
    ⟨State.reset, 4, .finalize, by decide, rfl, by decide⟩,
    ⟨State.reset, 5, .reservedOpcode, by decide, rfl, by decide⟩⟩

theorem witness_EncodeAfterDecode :
    (∃ (w : Word) (i : Instr), decodeWord .header w = .ok i) ∧ (∃ (w : Word) (i : Instr), decodeWord .key w = .ok i) ∧
    ∃ (w : Word) (i : Instr), decodeWord .data w = .ok i :=
  ⟨⟨0x00012002, .initKeyed 32 1, by decide⟩, ⟨0, .keyword 0, rfl⟩, ⟨0xFFFFFFFF, .dataword 0xFFFFFFFF, rfl⟩⟩

theorem witness_HeadersMatchTheOpcodeMap : ∃ (w : Word) (s : State), w &&& 0xFFFF00FF ≠ 0x00000001 ∧
    w &&& 0xFF0000FF ≠ 0x00000002 ∧ w &&& 0x000000FF ≠ 0x00000003 ∧ w &&& 0xFFFFFFFF ≠ 0x00000004 ∧
    s.phase ≠ .error ∧ s.rxLeft = 0 :=
  ⟨0x00000105, State.reset, by decide, by decide, by decide, by decide, by decide, rfl⟩

theorem witness_PayloadPackingIsLittleEndian : ∃ (bs : List Byte) (j : Nat), j < bs.length := ⟨[1, 2, 3, 4, 5], 4, by decide⟩

theorem witness_PseudoInstructionsExpand : (∃ key : List Byte, key.length < 256) ∧
    (∃ bs : List Byte, bs.length < 2 ^ 24) ∧ ∃ bs : List Byte, 2 ^ 24 ≤ bs.length :=
  ⟨⟨[1], by decide⟩, ⟨[], by decide⟩, ⟨List.replicate (2 ^ 24) 0, by rw [List.length_replicate]⟩⟩

theorem witness_HeaderChecksInPriorityOrder :
    (∃ (w : Word) (s : State), s.phase ≠ .error ∧ s.rxLeft = 0 ∧ headerError s.phase w = none) ∧
    ∀ c : ErrCode, c ≠ .none → c ≠ .digestRead →
      ∃ (w : Word) (s : State), s.phase ≠ .error ∧ s.rxLeft = 0 ∧ headerError s.phase w = some c := by
  refine ⟨⟨0x00002001, State.reset, by decide, rfl, by decide⟩, fun c h1 h2 => ?_⟩
  cases c with
  | none => exact absurd rfl h1
  | digestRead => exact absurd rfl h2
  | illegal => exact ⟨0x01202002, State.reset, by decide, rfl, by decide⟩
  | badDigestSize => exact ⟨0x00000002, State.reset, by decide, rfl, by decide⟩
  | badKeyLen => exact ⟨0x00212002, State.reset, by decide, rfl, by decide⟩
  | sequence => exact ⟨0x00000003, State.reset, by decide, rfl, by decide⟩

theorem witness_IllegalHeadersAreExactlyThese :
    (∃ s : State, s.phase ≠ .error ∧ s.errcode = .none ∧ s.rxOp ≠ .none) ∧
    ∃ s : State, s.phase ≠ .error ∧ s.errcode = .none ∧ s.rxLeft = 0 :=
  ⟨⟨receiving .data 3 [], by decide, rfl, by decide⟩, ⟨State.reset, by decide, rfl, rfl⟩⟩

theorem witness_BadDigestSizeIsReported :
    (∃ (nn : Byte) (s : State), s.phase ≠ .error ∧ nn.toNat < 1) ∧
    ∃ (nn : Byte) (s : State), s.phase ≠ .error ∧ 32 < nn.toNat :=
  ⟨⟨0, State.reset, by decide, by decide⟩, ⟨33, State.reset, by decide, by decide⟩⟩

theorem witness_BadKeyLengthIsReported :
    (∃ (nn kk : Byte) (s : State), s.phase ≠ .error ∧ 1 ≤ nn.toNat ∧ nn.toNat ≤ 32 ∧ kk.toNat < 1) ∧
    ∃ (nn kk : Byte) (s : State), s.phase ≠ .error ∧ 1 ≤ nn.toNat ∧ nn.toNat ≤ 32 ∧ 32 < kk.toNat :=
  ⟨⟨32, 0, State.reset, by decide, by decide, by decide, by decide⟩,
    ⟨1, 33, State.reset, by decide, by decide, by decide, by decide⟩⟩

theorem witness_SequenceErrorsOutsideAbsorb : (∃ s : State, s.phase = .idle) ∧ ∃ s : State, s.phase = .done :=
  ⟨⟨State.reset, rfl⟩, ⟨finished, rfl⟩⟩

theorem witness_ErrorEntryIsPrecise : ∃ s t : State, step s = .next t ∧ s.phase ≠ .error ∧ t.phase = .error :=
  ⟨withInput (.write .word 0x00 0x00000004) finished, _, rfl, by decide, rfl⟩

theorem witness_ErrorPhaseIsSticky : ∃ (s t : State) (i : Input) (rest : List Input), s.phase = .error ∧
    s.pending = i :: rest ∧ i ≠ .reset ∧ step s = .next t :=
  ⟨withInput (.write .word 0x00 0x00002001) failed, _, .write .word 0x00 0x00002001, [], rfl, rfl, by decide, rfl⟩

theorem witness_ReservedOffsetsAreInert : ∃ off : Nat, off ∈ [0x0C, 0x10, 0x14, 0x18, 0x1C] := ⟨0x1C, by decide⟩

theorem witness_WritesOutsideCmdAreIgnored :
    (4 % 4 = 0 ∧ 0 < 4 ∧ 4 < 64) ∧ (60 % 4 = 0 ∧ 0 < 60 ∧ 60 < 64) := by decide

theorem witness_OtherAccessesAreRefused :
    (∃ (size : AccessSize) (off : Nat), size ≠ .word ∧ off % 4 = 0) ∧ ∃ off : Nat, off % 4 ≠ 0 :=
  ⟨⟨.byte, 0, by decide, rfl⟩, ⟨63, by decide⟩⟩

theorem witness_DigestReadsByPhase : (∃ s : State, s.phase = .done) ∧ (∃ s : State, s.phase = .error) ∧
    (∃ s : State, s.phase = .idle) ∧ ∃ s : State, s.phase = .absorb :=
  ⟨⟨finished, rfl⟩, ⟨failed, rfl⟩, ⟨State.reset, rfl⟩, ⟨open32 [], rfl⟩⟩

theorem witness_LegalAccessesComplete :
    (∃ (s : State) (rest : List Input) (off : Nat) (w : Word), Inv s ∧ off % 4 = 0 ∧ off < 64 ∧
      s.pending = .write .word off w :: rest) ∧
    (∃ (s : State) (rest : List Input) (off : Nat), Inv s ∧ off % 4 = 0 ∧ off < 64 ∧
      s.pending = .read .word off :: rest) ∧
    ∃ (s : State) (rest : List Input), Inv s ∧ s.pending = .reset :: rest :=
  ⟨⟨withInput (.write .word 0 7) State.reset, [], 0, 7, withInput_inv _ reset_inv, rfl, by decide, rfl⟩,
    ⟨withInput (.read .word 60) State.reset, [], 60, withInput_inv _ reset_inv, rfl, by decide, rfl⟩,
    ⟨withInput .reset State.reset, [], withInput_inv _ reset_inv, rfl⟩⟩

theorem witness_ConstructionSeedsTheContext :
    (∃ (nn kk : Byte) (s : State), s.phase ≠ .error ∧ 1 ≤ nn.toNat ∧ nn.toNat ≤ 32 ∧ 1 ≤ kk.toNat ∧ kk.toNat ≤ 32) ∧
    ∃ (nn kk : Byte) (s : State), s.phase = .done ∧ nn.toNat = 32 ∧ kk.toNat = 32 :=
  ⟨⟨1, 1, State.reset, by decide, by decide, by decide, by decide, by decide⟩, ⟨32, 32, finished, rfl, rfl, rfl⟩⟩

theorem witness_KeyWordStoresItsBytes : (∃ s : State, s.phase ≠ .error ∧ s.rxLeft.toNat = 4) ∧
    ∃ s : State, s.phase ≠ .error ∧ s.rxLeft.toNat = 5 :=
  ⟨⟨receiving .key 4 [], by decide, rfl⟩, ⟨receiving .key 5 [], by decide, rfl⟩⟩

theorem witness_KeyReceptionEqualsUpdate : ∃ (nn kk : Byte) (ws : List Word) (s : State), s.phase ≠ .error ∧
    s.rxLeft = 0 ∧ 1 ≤ nn.toNat ∧ nn.toNat ≤ 32 ∧ 1 ≤ kk.toNat ∧ kk.toNat ≤ 32 ∧ ws.length = (kk.toNat + 3) / 4 :=
  ⟨32, 5, [0x03020100, 0x00000004], State.reset, by decide, rfl, by decide, by decide, by decide, by decide, by decide⟩

theorem witness_UpdateHeaderOpensTheReceiver : ∃ s : State, s.phase = .absorb := ⟨open32 [], rfl⟩

theorem witness_DataWordFeedsItsBytes :
    (∃ s : State, s.phase ≠ .error ∧ s.buflen ≤ 128 ∧ s.buflen + min 4 s.rxLeft.toNat = 128) ∧
    (∃ s : State, s.phase ≠ .error ∧ s.buflen ≤ 128 ∧ s.buflen + min 4 s.rxLeft.toNat = 129) ∧
    ∃ s : State, s.phase ≠ .error ∧ s.buflen = 128 ∧ s.buflen + min 4 s.rxLeft.toNat = 132 :=
  ⟨⟨receiving .data 4 (List.replicate 124 0), by decide +kernel, by decide +kernel, by decide +kernel⟩,
    ⟨receiving .data 4 (List.replicate 125 0), by decide +kernel, by decide +kernel, by decide +kernel⟩,
    ⟨receiving .data 9 (List.replicate 128 0), by decide +kernel, by decide +kernel, by decide +kernel⟩⟩

theorem witness_UnusedLanesAreIgnored : ∃ (w w' : Word) (s : State), w ≠ w' ∧ s.phase ≠ .error ∧
    ∀ j, j < min 4 s.rxLeft.toNat → w.extractLsb' (8 * j) 8 = w'.extractLsb' (8 * j) 8 :=
  ⟨0x00636261, 0xFF636261, receiving .data 3 [], by decide, by decide, by decide⟩

theorem witness_ChunkingInvariance : ∃ s : State, s.buflen ≤ 128 := ⟨open32 (List.replicate 128 1), by decide +kernel⟩

theorem witness_DataWordsEqualOneUpdate : ∃ (len : BitVec 24) (ws : List Word) (s : State), s.phase = .absorb ∧
    s.rxLeft = 0 ∧ s.rxOp = .none ∧ s.buflen ≤ 128 ∧ ws.length = (len.toNat + 3) / 4 ∧ len ≠ 0 :=
  ⟨5, [0x64636261, 0x00000065], open32 (List.replicate 126 1), rfl, rfl, rfl, by decide +kernel, by decide +kernel, by decide +kernel⟩

theorem witness_BufferOccupancyLaw : (∃ data : List Byte, data.length = 128) ∧ (∃ data : List Byte, data.length = 129) ∧
    ∃ s : State, s.buflen = 128 :=
  ⟨⟨List.replicate 128 0, by decide +kernel⟩, ⟨List.replicate 129 0, by decide +kernel⟩, ⟨open32 (List.replicate 128 0), by decide +kernel⟩⟩

theorem witness_FinalizeClosesTheHash : (∃ s : State, s.phase = .absorb ∧ s.buflen = 64) ∧
    (∃ s : State, s.phase = .absorb ∧ s.buflen = 65) ∧ ∃ s : State, s.phase = .absorb ∧ s.buflen = 128 :=
  ⟨⟨open32 (List.replicate 64 0), rfl, by decide⟩, ⟨open32 (List.replicate 65 0), rfl, by decide⟩,
    ⟨open32 (List.replicate 128 0), rfl, by decide⟩⟩

theorem witness_CommandStreamComputesTheHash :
    (∃ (nn : Byte) (key : List Byte) (s : State), s.phase ≠ .error ∧ s.rxLeft = 0 ∧ 1 ≤ nn.toNat ∧ nn.toNat ≤ 32 ∧
      key.length ≤ 32 ∧ key ≠ []) ∧
    ∃ (nn : Byte) (key : List Byte) (s : State), s.phase ≠ .error ∧ s.rxLeft = 0 ∧ 1 ≤ nn.toNat ∧ nn.toNat ≤ 32 ∧
      key.length ≤ 32 ∧ key = [] :=
  ⟨⟨32, List.replicate 32 7, State.reset, by decide, rfl, by decide, by decide, by decide, by decide⟩,
    ⟨1, [], finished, by decide, rfl, by decide, by decide, by decide, rfl⟩⟩

theorem witness_RotrIsTheRightRotation : (0 < 1 ∧ 1 < 32) ∧ (0 < 31 ∧ 31 < 32) := by decide

theorem witness_MixGRunsTheEightSteps : ∃ a b c d : Fin 16, [a, b, c, d].Nodup := ⟨3, 4, 9, 14, by decide⟩

theorem witness_DisjointMixesCommute : ∃ a b c d a' b' c' d' : Fin 16, [a, b, c, d, a', b', c', d'].Nodup :=
  ⟨0, 4, 8, 12, 1, 5, 9, 13, by decide⟩

theorem witness_StepKeepsTheInvariant : ∃ s t : State, Inv s ∧ step s = .next t :=
  ⟨withInput (.write .word 0x00 0x00002001) State.reset, _, withInput_inv _ reset_inv, rfl⟩

theorem witness_PhaseTransitionsAreTheseOnly : ∃ s t : State, step s = .next t ∧ s.phase = .idle ∧ t.phase = .absorb :=
  ⟨withInput (.write .word 0x00 0x00002001) State.reset, _, rfl, rfl, rfl⟩

theorem witness_ErrorRecordHasTwoWriters : ∃ s t : State, step s = .next t ∧ t.errcode ≠ s.errcode :=
  ⟨withInput (.read .word 0x3C) State.reset, _, rfl, by decide⟩

theorem witness_FinalizeFlagHasTheseWriters : ∃ s t : State, step s = .next t ∧ t.f0 ≠ s.f0 :=
  ⟨withInput (.write .word 0x00 0x00000004) (open32 []), _, rfl, by decide +kernel⟩

theorem finished_inv : Inv finished := by
  constructor <;> simp [finished, open32, State.reset, byteCount]

theorem witness_DigestStaysUntilTheNextContext : ∃ s t : State, Inv s ∧ s.phase = .done ∧ step s = .next t :=
  ⟨withInput (.read .word 0x20) finished, _, withInput_inv _ finished_inv, rfl, rfl⟩

theorem witness_ExecFrame : ∃ (i : Instr) (s t : State), exec i s = .next t ∧ t.phase ≠ .error :=
  ⟨.update 3, open32 [], _, rfl, by decide⟩

theorem witness_BufferShiftsPerStepAreBounded : ∃ s t : State, s.buflen ≤ 128 ∧ step s = .next t :=
  ⟨withInput (.write .word 0x00 4) (open32 (List.replicate 65 0)), _, by decide, rfl⟩

theorem witness_UnobservableStateStaysUnobservable : ∃ a b : State, Inv a ∧ Inv b ∧ Alike a b ∧ a ≠ b := by
  refine ⟨State.reset, { State.reset with t0 := 1 }, reset_inv, ?_, ?_, by decide +kernel⟩
  · constructor <;> simp [State.reset]
  · constructor <;> simp [State.reset]

theorem witness_InstancesShareNothing : ∃ (i : SystemInput) (xs ys : List Window), windowsWf xs = true ∧
    systemPerform i xs = .next ys :=
  ⟨.read .word 0x1044, [{ base := 0x1000, core := State.reset }, { base := 0x1040, core := State.reset }], _,
    by decide, rfl⟩

theorem witness_InstancesStartInReset : (∃ bases : List Nat, basesWf bases = true ∧ 1 < bases.length) ∧
    ∃ (xs : List Window) (k : Nat), k < xs.length ∧ windowsWf xs = true :=
  ⟨⟨[0x1000, 0x1040], by decide, by decide⟩, ⟨[{ base := 0, core := failed }], 0, by decide, by decide⟩⟩

theorem witness_PlatformKeepsItsInvariant : ∃ (i : SystemInput) (xs ys : List Window), PlatformInv xs ∧
    systemPerform i xs = .next ys := by
  refine ⟨.write .word 0x1040 0x00002001, platformStart [0x1000, 0x1040], _, ⟨by decide, fun x hx => ?_⟩, rfl⟩
  obtain ⟨b, -, rfl⟩ := List.mem_map.1 hx
  exact reset_inv

end Sys2Proof.Machine.Tests
end

section
/-! PROOFS. Rotation (R172): `rotr32` against the library's rotation of bit vectors. -/

namespace Sys2Proof.Machine

theorem rotr32_eq_rotateRight (x : Word) (n : Nat) (h : n < 32) : rotr32 x n = x.rotateRight n := by
  rw [BitVec.rotateRight_def, Nat.mod_eq_of_lt h, rotr32]

/-- A rotation and then the rest of a full turn give the word back: each bit moves by 32 places in all. -/
theorem rotateRight_rotateRight_rest (x : Word) (n : Nat) (h0 : 0 < n) (h : n < 32) :
    (x.rotateRight n).rotateRight (32 - n) = x := by
  ext i hi
  have hrest : 32 - (32 - n) = n := by omega
  simp only [BitVec.getElem_rotateRight, Nat.mod_eq_of_lt h, Nat.mod_eq_of_lt (by omega : 32 - n < 32), hrest]
  by_cases hlow : i < n
  · rw [dif_pos hlow, dif_neg (by omega)]
    congr 1; omega
  · rw [dif_neg hlow, dif_pos (by omega)]
    congr 1; omega

/-- Settles O41: `rotr32` is the library's rotation, and two rotations by complementary counts are a full turn. -/
theorem rotrIsTheRightRotation : Obligations.RotrIsTheRightRotation := by
  intro x n h0 h
  refine ⟨rotr32_eq_rotateRight x n h, ?_⟩
  rw [rotr32_eq_rotateRight x n h, rotr32_eq_rotateRight _ (32 - n) (by omega)]
  exact rotateRight_rotateRight_rest x n h0 h

end Sys2Proof.Machine
end

section
/-! PROOFS. The input list and the last answer (assumptions 1 and 3): no instruction and no CMD write changes them, a
register read leaves an answer; so legal accesses complete (R10). -/

namespace Sys2Proof.Machine

theorem ExecEffect.pending {s t : State} {i : Instr} (h : ExecEffect s i t) : t.pending = s.pending := by
  cases h with
  | ignored _ _ => rfl
  | raised _ _ _ _ _ _ _ => rfl
  | init _ _ _ => rfl
  | initKeyed _ _ _ _ _ => rfl
  | keyword w _ => simp
  | updateZero _ => rfl
  | update _ _ _ => rfl
  | dataword w _ => simp
  | finalize _ => simp

theorem CmdEffect.pending {w : Word} {s t : State} (h : CmdEffect w s t) : t.pending = s.pending := by
  cases h with
  | ignored _ => rfl
  | illegal _ _ => rfl
  | header _ _ _ _ _ _ he => exact he.pending
  | key _ _ _ _ he => exact he.pending
  | data _ _ _ _ he => exact he.pending

theorem readRegister_pending (off : Nat) (s : State) (h4 : off % 4 = 0) : (readRegister off s).pending = s.pending := by
  obtain ⟨v, hv⟩ | ⟨-, -, hv⟩ := readRegister_cases off s h4
  · rw [hv, returnData_pending]
  · rw [hv, returnData_pending, raiseError_pending]

theorem readRegister_readData_ne_none (off : Nat) (s : State) (h4 : off % 4 = 0) :
    (readRegister off s).readData ≠ none := by
  obtain ⟨v, hv⟩ | ⟨-, -, hv⟩ := readRegister_cases off s h4
  · rw [hv, returnData_readData]; exact Option.some_ne_none v
  · rw [hv, returnData_readData]; exact Option.some_ne_none 0

theorem busRead_word (off : Nat) (s : State) (h4 : off % 4 = 0) (h : off < 64) :
    busRead .word off s = .next (readRegister off s) := by
  rw [busRead, accessProblem_word off h4 h]

theorem busWrite_word (off : Nat) (w : Word) (s : State) (h4 : off % 4 = 0) (h : off < 64) :
    busWrite .word off w s = if off = 0x00 then cmdWrite w s else .next s := by
  rw [busWrite, accessProblem_word off h4 h]

/-- A word write of the window completes when payload is pending only for a command (R26 (e)). -/
theorem busWrite_word_completes (off : Nat) (w : Word) (s : State) (h4 : off % 4 = 0) (h : off < 64)
    (hrx : s.rxOp ≠ .none ∨ s.rxLeft = 0) :
    ∃ t, busWrite .word off w s = .next t ∧ t.pending = s.pending := by
  rw [busWrite_word off w s h4 h]
  split
  · obtain ⟨t, ht⟩ := cmdWrite_next w s hrx
    exact ⟨t, ht, (cmdWrite_cases ht).pending⟩
  · exact ⟨s, rfl, rfl⟩

/-- The invariant rules out payload pending for no command (R26 (e)). -/
theorem Inv.rx_pending_has_command {s : State} (hi : Inv s) : s.rxOp ≠ .none ∨ s.rxLeft = 0 := by
  by_cases ho : s.rxOp = .none
  · exact .inr (hi.rx_closed_iff.1 ho)
  · exact .inl ho

/-- Settles O25, by the three kinds of input; only a CMD write needs the invariant. -/
theorem legalAccessesComplete : Obligations.LegalAccessesComplete := by
  intro s rest off w hi h4 h
  refine ⟨fun hp => ?_, fun hp => ?_, fun hp => ?_⟩ <;> rw [step_cons _ rest s hp, perform]
  · exact busWrite_word_completes off w (dropInput rest s) h4 h hi.rx_pending_has_command
  · rw [busRead_word off _ h4 h]
    exact ⟨_, rfl, readRegister_pending off _ h4, readRegister_readData_ne_none off _ h4⟩
  · exact ⟨_, rfl, rfl⟩

end Sys2Proof.Machine
end

section
/-! PROOFS. The command stream of one hash (R12, R138, R150, R155, R156): construction, message and FINALIZE, each as
what it adds to the virtual message stream. -/

namespace Sys2Proof.Machine

theorem virtualStream_eq_append (key msg : List Byte) : virtualStream key msg = virtualStream key [] ++ msg := by
  unfold virtualStream
  split
  · rfl
  · rw [List.append_nil]

/-- The receiver takes no part in what a context was fed. -/
theorem Fed.startReceive {h0 : Vector Word 8} {ctr : Nat} {data : List Byte} {t : State} (hf : Fed h0 ctr data t)
    (op : RxOp) (left : BitVec 24) : Fed h0 ctr data (startReceive op left t) := by
  obtain ⟨f0, f1, hb, hc, hh, hk, hv⟩ := hf
  exact ⟨f0, f1, hb, hc, hh, hk, hv⟩

/-- The context that the commands so far opened from `s` and fed `data`, waiting for a header: its shifts counted from
those of `s`, the error record still that of `s`. -/
structure OpenedFrom (s : State) (h0 : Vector Word 8) (data : List Byte) (t : State) : Prop where
  phase : t.phase = .absorb
  rxLeft : t.rxLeft = 0
  errcode : t.errcode = s.errcode
  errword : t.errword = s.errword
  fed : Fed h0 s.freeCtr data t

theorem OpenedFrom.initContext (nn kk : Byte) (s : State) (hl : s.rxLeft = 0) :
    OpenedFrom s (seedChain nn kk) [] (initContext nn kk s) :=
  ⟨rfl, hl, rfl, rfl, Fed.init nn kk s⟩

/-- Feeding bytes, and closing the receiver after them, extends the stream by them (R136). -/
theorem OpenedFrom.feed {s t : State} {h0 : Vector Word 8} {data : List Byte} (ht : OpenedFrom s h0 data t)
    (more : List Byte) (op : RxOp) : OpenedFrom s h0 (data ++ more) (startReceive op 0 (updateBytes more t)) := by
  obtain ⟨hp, -, hc, hw, hf⟩ := ht
  refine ⟨?_, rfl, ?_, ?_, (hf.updateBytes more).startReceive op 0⟩
  · rw [startReceive_phase, updateBytes_phase, hp]
  · rw [startReceive_errcode, updateBytes_errcode, hc]
  · rw [startReceive_errword, updateBytes_errword, hw]

theorem legalKeyLen_ofNat_length (key : List Byte) (hne : key ≠ []) (hk : key.length ≤ 32) :
    legalKeyLen (BitVec.ofNat 8 key.length) := by
  have hpos := List.length_pos_iff.2 hne
  have hnat : (BitVec.ofNat 8 key.length).toNat = key.length := by rw [BitVec.toNat_ofNat]; omega
  unfold legalKeyLen Config.maxKey
  omega

/-- INIT_KEYED with the words of its key feeds the zero-padded key (R105 to R107). -/
theorem cmdWrites_initKeyWords (nn : Byte) (key : List Byte) (s : State) (hp : s.phase ≠ .error) (hl : s.rxLeft = 0)
    (hn : legalDigestSize nn) (hne : key ≠ []) (hk : key.length ≤ 32) :
    cmdWrites (initKeyWords nn key) s =
      .next (startReceive .none 0 (updateBytes (virtualStream key [])
        (initContext nn (BitVec.ofNat 8 key.length) s))) := by
  have hlegal := legalKeyLen_ofNat_length key hne hk
  have hpos := List.length_pos_iff.2 hne
  have hnat : ((BitVec.ofNat 8 key.length).setWidth 24).toNat = key.length := by
    rw [BitVec.toNat_setWidth, BitVec.toNat_ofNat]; omega
  have hleft : (BitVec.ofNat 8 key.length).setWidth 24 ≠ 0 := by
    intro h0
    have hzero : 0 = key.length := by rw [← hnat, h0]; rfl
    omega
  rw [initKeyWords, cmdWrites, cmdWrite_encode _ s rfl hp hl, exec_initKeyed nn _ s hp hn hlegal]
  simp only
  rw [cmdWrites_key _ _ _ (by rw [initContext_phase]; decide) hleft (by rw [hnat, packWords_length]), hnat,
    packWords_lanes, key_block_padded key _ (by omega) rfl rfl, virtualStream, if_neg hne, List.append_nil]

/-- The CMD words that open the context of a hash: INIT, or INIT_KEYED with its key (R82, R233). -/
def constructWords (nn : Byte) (key : List Byte) : List Word :=
  if key = [] then [encode (.init nn)] else initKeyWords nn key

theorem hashCommand_eq (nn : Byte) (key msg : List Byte) :
    hashCommand nn key msg = constructWords nn key ++ (updateBytesWords msg ++ [encode .finalize]) := by
  rw [← List.append_assoc]; rfl

theorem cmdWrites_constructWords (nn : Byte) (key : List Byte) (s : State) (hp : s.phase ≠ .error) (hl : s.rxLeft = 0)
    (hn : legalDigestSize nn) (hk : key.length ≤ 32) :
    ∃ t, cmdWrites (constructWords nn key) s = .next t ∧
      OpenedFrom s (seedChain nn (BitVec.ofNat 8 key.length)) (virtualStream key []) t := by
  unfold constructWords
  split
  · next hempty =>
    subst hempty
    refine ⟨initContext nn 0 s, ?_, OpenedFrom.initContext nn 0 s hl⟩
    rw [cmdWrites, cmdWrite_encode _ s rfl hp hl, exec_init nn s hp hn]
    rfl
  · next hne =>
    exact ⟨_, cmdWrites_initKeyWords nn key s hp hl hn hne hk,
      (OpenedFrom.initContext nn (BitVec.ofNat 8 key.length) s hl).feed (virtualStream key []) .none⟩

/-- The UPDATEs of a message extend the stream by the message (R82, R136). -/
theorem OpenedFrom.cmdWrites_message {s t : State} {h0 : Vector Word 8} {data : List Byte}
    (ht : OpenedFrom s h0 data t) (msg : List Byte) :
    ∃ u, cmdWrites (updateBytesWords msg) t = .next u ∧ OpenedFrom s h0 (data ++ msg) u := by
  obtain ⟨op, hu⟩ := cmdWrites_updateBytesWords msg t ht.phase ht.rxLeft ht.fed.buflen_le
  exact ⟨_, hu, ht.feed msg op⟩

theorem OpenedFrom.cmdWrites_finalize {s t : State} {h0 : Vector Word 8} {data : List Byte}
    (ht : OpenedFrom s h0 data t) : cmdWrites [encode .finalize] t = .next (finishHash t) := by
  have hp : t.phase ≠ .error := by rw [ht.phase]; decide
  rw [cmdWrites, cmdWrite_encode _ t rfl hp ht.rxLeft, exec_finalize t ht.phase]
  rfl

/-- Settles O40: construction opens the context on the key block, the UPDATEs extend its stream by the message, and
FINALIZE of the whole stream gives its hash. -/
theorem commandStreamComputesTheHash : Obligations.CommandStreamComputesTheHash := by
  intro nn key msg s hp hl hn1 hn32 hk
  obtain ⟨t, ht, hopen⟩ := cmdWrites_constructWords nn key s hp hl ⟨hn1, hn32⟩ hk
  obtain ⟨u, hu, hfed⟩ := hopen.cmdWrites_message msg
  rw [← virtualStream_eq_append] at hfed
  obtain ⟨hh, hcount, hctr⟩ := hfed.fed.finishHash
  refine ⟨finishHash u, ?_, finishHash_phase u, hh, finishHash_f0 u, ?_, hcount, hctr, ?_, ?_⟩
  · rw [hashCommand_eq, cmdWrites_append_next _ ht, cmdWrites_append_next _ hu, hfed.cmdWrites_finalize]
  · rw [finishHash_f1, hfed.fed.f1]
  · rw [finishHash_errcode, hfed.errcode]
  · rw [finishHash_errword, hfed.errword]

end Sys2Proof.Machine
end

section
/-! PROOFS. The state after reset (R37, R230, R231). -/

namespace Sys2Proof.Machine

theorem resetTable_reset : ResetTable State.reset := by
  constructor <;> rfl

/-- Whatever the core held, the reset input leaves the values of the table. -/
theorem resetTable_applyReset (s : State) : ResetTable (applyReset s) := by
  constructor
  case status => exact resetTable_reset.status
  all_goals rfl

theorem ResetTable.byteCount_eq_zero {s : State} (h : ResetTable s) : byteCount s = 0 := by
  rw [byteCount, h.t0, h.t1]; rfl

/-- The values of the table meet the invariant: what speaks of ABSORB, DONE or key reception has nothing to say. -/
theorem ResetTable.inv {s : State} (h : ResetTable s) : Inv s := by
  have hcount := h.byteCount_eq_zero
  obtain ⟨-, -, -, hf0, hf1, -, hlen, hphase, hcode, hword, hop, hleft, -⟩ := h
  constructor <;> simp [hf0, hf1, hlen, hphase, hcode, hword, hop, hleft, hcount]

/-- Settles O1: a step on a reset input is `applyReset`, whose elements are those of the table. -/
theorem resetGivesTheTable : Obligations.ResetGivesTheTable := by
  refine ⟨resetTable_reset, fun s rest hp => ?_⟩
  exact ⟨applyReset (dropInput rest s), step_cons .reset rest s hp, resetTable_applyReset _, applyReset_pending _⟩

/-- Settles O46: the reset state has the values of the table. -/
theorem invariantAtReset : Obligations.InvariantAtReset := resetTable_reset.inv

end Sys2Proof.Machine
end

section
/-! PROOFS. The invariant of one core (R22 to R29): every step keeps it. -/

namespace Sys2Proof.Machine

/-- An instruction keeps the invariant in the context the sequencer runs it in (R70). -/
theorem ExecEffect.inv {i : Instr} {s t : State} (he : ExecEffect s i t) (hi : Inv s)
    (hheader : i.kind = .header → s.rxLeft = 0) (hkey : i.kind = .key → s.rxOp = .key)
    (hdata : i.kind = .data → s.rxOp = .data) : Inv t := by
  cases he with
  | ignored _ _ => exact hi
  | raised _ c _ _ hc _ _ => exact hi.raiseError c _ hc
  | init nn hp _ => exact hi.initContext hp (hheader rfl) nn 0
  | initKeyed nn kk hp _ hk => exact hi.startKey hp nn kk hk
  | keyword w _ => exact hi.keyword (hkey rfl) w
  | updateZero _ => exact hi
  | update len hp hl => exact hi.startData hp len hl
  | dataword w _ => exact hi.dataword (hdata rfl) w
  | finalize hp => exact hi.finishHash hp (hheader rfl)

theorem CmdEffect.inv {w : Word} {s t : State} (hc : CmdEffect w s t) (hi : Inv s) : Inv t := by
  cases hc with
  | ignored _ => exact hi
  | illegal _ _ => exact hi.raiseError .illegal w (by decide)
  | header i _ _ hl hk _ he => exact he.inv hi (fun _ => hl) (by rw [hk]; nofun) (by rw [hk]; nofun)
  | key _ _ _ ho he => exact he.inv hi nofun (fun _ => ho) nofun
  | data _ _ _ ho he => exact he.inv hi nofun nofun (fun _ => ho)

theorem Inv.dropInput {s : State} (hi : Inv s) (rest : List Input) : Inv (dropInput rest s) :=
  hi.of_sameCore (by constructor <;> rfl)

theorem Inv.returnData {s : State} (hi : Inv s) (v : Word) : Inv (returnData v s) :=
  hi.of_sameCore (by constructor <;> rfl)

theorem StepEffect.inv {s t : State} (he : StepEffect s t) (hi : Inv s) : Inv t := by
  cases he with
  | wait _ => exact hi
  | reset rest _ => exact (resetTable_applyReset _).inv
  | cmd w rest _ _ hc => exact hc.inv (hi.dropInput rest)
  | ignoredWrite off w rest _ _ => exact hi.dropInput rest
  | read off v rest _ _ => exact (hi.dropInput rest).returnData v
  | digestError off rest _ _ _ => exact ((hi.dropInput rest).raiseError .digestRead _ (by decide)).returnData 0

/-- Settles O47, by the cases of one step; each operation's own law says what it keeps. -/
theorem stepKeepsTheInvariant : Obligations.StepKeepsTheInvariant :=
  fun _ _ hi h => (step_cases h).inv hi

end Sys2Proof.Machine
end

section
/-! PROOFS. Register reads and the STATUS word (R32, R33, R35, R51, R152). -/

namespace Sys2Proof.Machine

theorem readRegister_cmd (s : State) : readRegister 0x00 s = returnData 0 s := rfl

theorem readRegister_status (s : State) : readRegister 0x04 s = returnData s.statusWord s := rfl

theorem readRegister_errword (s : State) : readRegister 0x08 s = returnData s.errword s := rfl

/-- Settles O20: the three offsets are in the window, and each read is its register's. -/
theorem registerReadsFollowTheMap : Obligations.RegisterReadsFollowTheMap := by
  intro s
  refine ⟨?_, ?_, ?_⟩
  · rw [busRead_word 0x00 s rfl (by decide), readRegister_cmd]; rfl
  · rw [busRead_word 0x04 s rfl (by decide), readRegister_status]; rfl
  · rw [busRead_word 0x08 s rfl (by decide), readRegister_errword]; rfl

/-- The bit fields of R33, each read back from the word they make up. -/
theorem statusWord_fields (s : State) :
    s.statusWord.extractLsb' 0 2 = s.phase.bits ∧ s.statusWord.extractLsb' 2 2 = 0 ∧
      s.statusWord.extractLsb' 4 4 = s.errcode.bits ∧ s.statusWord.extractLsb' 8 24 = s.rxLeft := by
  unfold State.statusWord
  generalize s.phase.bits = p
  generalize s.errcode.bits = e
  refine ⟨?_, ?_, ?_, ?_⟩ <;> ext i hi <;> interval_cases i <;>
    simp [BitVec.getLsbD_of_ge, BitVec.getLsbD_eq_getElem]

/-- Settles O19: the fields read back from the word, and the register is at its offset, read only. -/
theorem statusFieldsAreInPlace : Obligations.StatusFieldsAreInPlace := by
  refine ⟨by decide, by decide, resetTable_reset.status, fun s => ?_⟩
  obtain ⟨hphase, hzero, hcode, hleft⟩ := statusWord_fields s
  refine ⟨hphase, hzero, hcode, hleft, ?_, fun w => ?_⟩
  · rw [busRead_word 0x04 s rfl (by decide), readRegister_status]; rfl
  · rw [busWrite_word 0x04 w s rfl (by decide), if_neg (by decide)]

end Sys2Proof.Machine
end

section
/-! PROOFS. The counter addition (R135). -/

namespace Sys2Proof.Machine

/-- Settles O31: IncT writes the two counter words alone, and they are the words of the sum. -/
theorem counterAdditionCarriesAndWraps : Obligations.CounterAdditionCarriesAndWraps := by
  intro n s
  rw [← incT_t0_eq, ← incT_t1_eq]
  rfl

end Sys2Proof.Machine
end

section
/-! PROOFS. Who writes the phase, the error record and the finalize flags (R23, R27, R28): said of one instruction, then of
one CMD write, then of one step. -/

namespace Sys2Proof.Machine

theorem ExecEffect.readData {i : Instr} {s t : State} (he : ExecEffect s i t) : t.readData = s.readData := by
  cases he with
  | ignored _ _ => rfl
  | raised _ _ _ _ _ _ _ => rfl
  | init _ _ _ => rfl
  | initKeyed _ _ _ _ _ => rfl
  | keyword w _ => simp
  | updateZero _ => rfl
  | update _ _ _ => rfl
  | dataword w _ => simp
  | finalize _ => simp

/-! ## The error record -/

/-- Error entry, from any other phase (R200). -/
def EntersError (s t : State) : Prop := s.phase ≠ .error ∧ t.phase = .error

/-- The error record is the same in both states. -/
def SameRecord (s t : State) : Prop := t.errcode = s.errcode ∧ t.errword = s.errword

theorem ExecEffect.record {i : Instr} {s t : State} (he : ExecEffect s i t) : EntersError s t ∨ SameRecord s t := by
  cases he with
  | ignored _ _ => exact .inr ⟨rfl, rfl⟩
  | raised _ c hp _ _ _ _ => exact .inl ⟨hp, rfl⟩
  | init _ _ _ => exact .inr ⟨rfl, rfl⟩
  | initKeyed _ _ _ _ _ => exact .inr ⟨rfl, rfl⟩
  | keyword w _ => exact .inr ⟨by simp, by simp⟩
  | updateZero _ => exact .inr ⟨rfl, rfl⟩
  | update _ _ _ => exact .inr ⟨rfl, rfl⟩
  | dataword w _ => exact .inr ⟨by simp, by simp⟩
  | finalize _ => exact .inr ⟨finishHash_errcode s, finishHash_errword s⟩

theorem CmdEffect.record {w : Word} {s t : State} (hc : CmdEffect w s t) : EntersError s t ∨ SameRecord s t := by
  cases hc with
  | ignored _ => exact .inr ⟨rfl, rfl⟩
  | illegal hp _ => exact .inl ⟨hp, rfl⟩
  | header _ _ _ _ _ _ he => exact he.record
  | key _ _ _ _ he => exact he.record
  | data _ _ _ _ he => exact he.record

theorem StepEffect.record {s t : State} (he : StepEffect s t) :
    EntersError s t ∨ SameRecord s t ∨ ∃ rest, s.pending = .reset :: rest := by
  cases he with
  | wait _ => exact .inr (.inl ⟨rfl, rfl⟩)
  | reset rest hp => exact .inr (.inr ⟨rest, hp⟩)
  | cmd w rest _ _ hc => exact hc.record.imp id .inl
  | ignoredWrite _ _ _ _ _ => exact .inr (.inl ⟨rfl, rfl⟩)
  | read _ _ _ _ _ => exact .inr (.inl ⟨rfl, rfl⟩)
  | digestError _ _ _ hp _ => exact .inl ⟨by rcases hp with hp | hp <;> rw [hp] <;> decide, rfl⟩

/-- Settles O49: a changed record is not the same one, and error entry and reset are what is left. -/
theorem errorRecordHasTwoWriters : Obligations.ErrorRecordHasTwoWriters := by
  intro s t h hchange
  obtain herr | ⟨hcode, hword⟩ | hreset := (step_cases h).record
  · exact .inl herr
  · exact (hchange.elim (· hcode) (· hword)).elim
  · exact .inr hreset

/-- Settles O52: an effect in ERROR is the same state, as exec ignores its word there (R208). -/
theorem execFrame : Obligations.ExecFrame := by
  intro i s t h
  have he := exec_cases h
  refine ⟨he.pending, he.readData, fun hp => ?_, fun hp => ?_⟩
  · exact he.record.resolve_left fun herr => hp herr.2
  · rw [exec_error i s hp] at h
    cases h; rfl

/-! ## The finalize flags -/

/-- What may become of the flags when reset does not write them (R23). -/
inductive FlagWrite (s t : State) : Prop where
  | kept (h0 : t.f0 = s.f0) (h1 : t.f1 = s.f1)
  | finalize (hs : s.phase = .absorb) (ht : t.phase = .done) (h0 : t.f0 = lastBlockFlag) (h1 : t.f1 = s.f1)
  | construct (ht : t.phase = .absorb) (h0 : t.f0 = 0) (h1 : t.f1 = 0)

theorem ExecEffect.flags {i : Instr} {s t : State} (he : ExecEffect s i t) : FlagWrite s t := by
  cases he with
  | ignored _ _ => exact .kept rfl rfl
  | raised _ _ _ _ _ _ _ => exact .kept rfl rfl
  | init _ _ _ => exact .construct rfl rfl rfl
  | initKeyed _ _ _ _ _ => exact .construct rfl rfl rfl
  | keyword w _ => exact .kept (by simp) (by simp)
  | updateZero _ => exact .kept rfl rfl
  | update _ _ _ => exact .kept rfl rfl
  | dataword w _ => exact .kept (by simp) (by simp)
  | finalize hp => exact .finalize hp (finishHash_phase s) (finishHash_f0 s) (finishHash_f1 s)

theorem CmdEffect.flags {w : Word} {s t : State} (hc : CmdEffect w s t) : FlagWrite s t := by
  cases hc with
  | ignored _ => exact .kept rfl rfl
  | illegal _ _ => exact .kept rfl rfl
  | header _ _ _ _ _ _ he => exact he.flags
  | key _ _ _ _ he => exact he.flags
  | data _ _ _ _ he => exact he.flags

theorem FlagWrite.of_dropInput {rest : List Input} {s t : State} (h : FlagWrite (dropInput rest s) t) :
    FlagWrite s t := by
  cases h with
  | kept h0 h1 => exact .kept h0 h1
  | finalize hs ht h0 h1 => exact .finalize hs ht h0 h1
  | construct ht h0 h1 => exact .construct ht h0 h1

theorem StepEffect.flags {s t : State} (he : StepEffect s t) : FlagWrite s t ∨ ∃ rest, s.pending = .reset :: rest := by
  cases he with
  | wait _ => exact .inl (.kept rfl rfl)
  | reset rest hp => exact .inr ⟨rest, hp⟩
  | cmd w rest _ _ hc => exact .inl hc.flags.of_dropInput
  | ignoredWrite _ _ _ _ _ => exact .inl (.kept rfl rfl)
  | read _ _ _ _ _ => exact .inl (.kept rfl rfl)
  | digestError _ _ _ _ _ => exact .inl (.kept rfl rfl)

/-- Settles O50: changed flags are not kept ones; the other three writers are the statement. -/
theorem finalizeFlagHasTheseWriters : Obligations.FinalizeFlagHasTheseWriters := by
  intro s t h hchange
  obtain hflags | hreset := (step_cases h).flags
  · cases hflags with
    | kept h0 h1 => exact (hchange.elim (· h0) (· h1)).elim
    | finalize hs ht h0 h1 => exact .inl ⟨hs, ht, h0, h1⟩
    | construct ht h0 h1 => exact .inr (.inl ⟨ht, h0, h1⟩)
  · exact .inr (.inr hreset)

/-! ## The phase -/

/-- The words of a legal INIT or INIT_KEYED header (R104, R105). -/
inductive ConstructorWord : Word → Prop where
  | init (nn : Byte) (hn : legalDigestSize nn) : ConstructorWord (encode (.init nn))
  | initKeyed (nn kk : Byte) (hn : legalDigestSize nn) (hk : legalKeyLen kk) :
      ConstructorWord (encode (.initKeyed nn kk))

/-- What may become of the phase in one CMD write of `w` (R27). -/
inductive PhaseMove (w : Word) (s t : State) : Prop where
  | stays (h : t.phase = s.phase)
  | construct (hs : s.phase ≠ .error) (hl : s.rxLeft = 0) (hw : ConstructorWord w) (ht : t.phase = .absorb)
  | finalize (hs : s.phase = .absorb) (hl : s.rxLeft = 0) (hw : encode .finalize = w) (ht : t.phase = .done)
  | error (h : EntersError s t)

theorem ExecEffect.phaseMove {i : Instr} {s t : State} (he : ExecEffect s i t) (hl : s.rxLeft = 0) :
    PhaseMove (encode i) s t := by
  cases he with
  | ignored _ _ => exact .stays rfl
  | raised _ _ hp _ _ _ _ => exact .error ⟨hp, rfl⟩
  | init nn hp hn => exact .construct hp hl (.init nn hn) rfl
  | initKeyed nn kk hp hn hk => exact .construct hp hl (.initKeyed nn kk hn hk) rfl
  | keyword w _ => exact .stays (by simp)
  | updateZero _ => exact .stays rfl
  | update _ _ _ => exact .stays rfl
  | dataword w _ => exact .stays (by simp)
  | finalize hp => exact .finalize hp hl rfl (finishHash_phase s)

/-- A payload word never changes the phase (R76). -/
theorem ExecEffect.payload_phase {i : Instr} {s t : State} (he : ExecEffect s i t) (hk : i.kind ≠ .header) :
    t.phase = s.phase := by
  cases he with
  | ignored _ _ => rfl
  | raised _ _ _ hheader _ _ _ => exact absurd hheader hk
  | init _ _ _ => exact absurd rfl hk
  | initKeyed _ _ _ _ _ => exact absurd rfl hk
  | keyword w _ => simp
  | updateZero _ => rfl
  | update _ _ _ => rfl
  | dataword w _ => simp
  | finalize _ => exact absurd rfl hk

theorem CmdEffect.phaseMove {w : Word} {s t : State} (hc : CmdEffect w s t) : PhaseMove w s t := by
  cases hc with
  | ignored _ => exact .stays rfl
  | illegal hp _ => exact .error ⟨hp, rfl⟩
  | header i _ _ hl _ hw he => exact hw ▸ he.phaseMove hl
  | key _ _ _ _ he => exact .stays (he.payload_phase nofun)
  | data _ _ _ _ he => exact .stays (he.payload_phase nofun)

theorem ConstructorWord.spelled {w : Word} (h : ConstructorWord w) :
    (∃ nn : Byte, 1 ≤ nn.toNat ∧ nn.toNat ≤ 32 ∧ w = encode (.init nn)) ∨
      ∃ nn kk : Byte, 1 ≤ nn.toNat ∧ nn.toNat ≤ 32 ∧ 1 ≤ kk.toNat ∧ kk.toNat ≤ 32 ∧ w = encode (.initKeyed nn kk) := by
  cases h with
  | init nn hn => exact .inl ⟨nn, hn.1, hn.2, rfl⟩
  | initKeyed nn kk hn hk => exact .inr ⟨nn, kk, hn.1, hn.2, hk.1, hk.2, rfl⟩

/-- Settles O48: a step that is no CMD write leaves the phase, enters ERROR by a DIGEST read, or is reset. -/
theorem phaseTransitionsAreTheseOnly : Obligations.PhaseTransitionsAreTheseOnly := by
  intro s t h
  cases step_cases h with
  | wait _ => exact .inl rfl
  | reset rest hp => exact .inr (.inr (.inr (.inr ⟨rfl, rest, hp⟩)))
  | ignoredWrite _ _ _ _ _ => exact .inl rfl
  | read _ _ _ _ _ => exact .inl rfl
  | digestError _ _ _ hp _ =>
    exact .inr (.inr (.inr (.inl ⟨by rcases hp with hp | hp <;> rw [hp] <;> decide, rfl⟩)))
  | cmd w rest _ hp hc =>
    cases hc.phaseMove with
    | stays hphase => exact .inl hphase
    | construct hs hl hw ht => exact .inr (.inl ⟨hs, ht, w, rest, hp, hl, hw.spelled⟩)
    | finalize hs hl hw ht =>
      subst hw
      exact .inr (.inr (.inl ⟨hs, ht, rest, hp, hl⟩))
    | error herr => exact .inr (.inr (.inr (.inl herr)))

end Sys2Proof.Machine
end

section
/-! PROOFS. The platform (R39, R65, R214): an input is the work of one window's core, found by its address. -/

namespace Sys2Proof.Machine

/-- The first window that holds the address performs the input, and only its core changes. -/
theorem systemPerform_cases {i : SystemInput} {xs ys : List Window} (h : systemPerform i xs = .next ys) :
    ∃ (k : Nat) (hk : k < xs.length) (c : State), xs[k].holds i.addr = true ∧
      perform (i.atCore xs[k].base) { xs[k].core with readData := none } = .next c ∧
      ys = xs.set k { xs[k] with core := c } := by
  induction xs generalizing ys with
  | nil => cases h
  | cons x xs ih =>
    rw [systemPerform] at h
    split at h
    · next hx =>
      split at h
      · next c hc =>
        cases h
        exact ⟨0, Nat.zero_lt_succ _, c, hx, hc, rfl⟩
      · cases h
      · cases h
    · split at h
      · next zs hzs =>
        cases h
        obtain ⟨k, hk, c, hholds, hc, rfl⟩ := ih hzs
        exact ⟨k + 1, Nat.succ_lt_succ hk, c, hholds, hc, rfl⟩
      · cases h
      · cases h

/-- A window that holds the address, with none before it that does, performs the input. -/
theorem systemPerform_at (i : SystemInput) (xs : List Window) (k : Nat) (hk : k < xs.length) (c : State)
    (hbefore : ∀ (j : Nat) (hj : j < xs.length), j < k → xs[j].holds i.addr = false)
    (hholds : xs[k].holds i.addr = true)
    (hc : perform (i.atCore xs[k].base) { xs[k].core with readData := none } = .next c) :
    systemPerform i xs = .next (xs.set k { xs[k] with core := c }) := by
  induction xs generalizing k with
  | nil => cases hk
  | cons x xs ih =>
    rw [systemPerform]
    cases k with
    | zero =>
      rw [List.getElem_cons_zero] at hholds hc
      rw [if_pos hholds, hc]
      rfl
    | succ k =>
      have hx : x.holds i.addr = false := hbefore 0 (Nat.zero_lt_succ _) (Nat.zero_lt_succ _)
      rw [if_neg (by rw [hx]; decide), ih k (Nat.lt_of_succ_lt_succ hk)
        (fun j hj hjk => hbefore (j + 1) (Nat.succ_lt_succ hj) (Nat.succ_lt_succ hjk)) hholds hc]
      rfl

/-- Separate aligned windows: an address lies in one of them at most (R65). -/
theorem holds_index_unique {xs : List Window} (hwf : windowsWf xs = true) {j k : Nat} (hj : j < xs.length)
    (hk : k < xs.length) {addr : Nat} (h1 : xs[j].holds addr = true) (h2 : xs[k].holds addr = true) : j = k := by
  obtain ⟨-, haligned, hnodup⟩ := (windowsWf_iff xs).1 hwf
  have hbase := holds_unique xs[j] xs[k] addr (haligned _ (List.getElem_mem hj)) (haligned _ (List.getElem_mem hk)) h1 h2
  have hmap : (xs.map Window.base)[j]'(by simpa using hj) = (xs.map Window.base)[k]'(by simpa using hk) := by
    rw [List.getElem_map, List.getElem_map, hbase]
  exact (List.Nodup.getElem_inj_iff hnodup).1 hmap

/-- A core written back behind its window leaves the arrangement as it was. -/
theorem windowsWf_set_core (xs : List Window) (k : Nat) (hk : k < xs.length) (c : State) :
    windowsWf (xs.set k { xs[k] with core := c }) = windowsWf xs := by
  have hbases : (xs.set k { xs[k] with core := c }).map Window.base = xs.map Window.base := by
    have hbase : ({ xs[k] with core := c } : Window).base = (xs.map Window.base)[k]'(by simpa using hk) := by
      rw [List.getElem_map]
    rw [List.map_set, hbase, List.set_getElem_self]
  rw [windowsWf, hbases, windowsWf]

/-- Settles O55: the window that performed the input is the only one that holds its address. -/
theorem instancesShareNothing : Obligations.InstancesShareNothing := by
  intro i xs ys hwf h
  obtain ⟨k, hk, c, hholds, hc, rfl⟩ := systemPerform_cases h
  refine ⟨List.length_set, fun j hj hj' => ?_⟩
  rw [List.getElem_set]
  split
  · next hkj =>
    subst hkj
    exact ⟨rfl, fun hno => absurd hholds (by rw [hno]; decide), fun _ => hc⟩
  · next hkj => exact ⟨rfl, fun _ => rfl, fun hyes => absurd (holds_index_unique hwf hk hj hholds hyes) hkj⟩

/-- One core keeps its invariant in any input: performing it is a step of that core. -/
theorem Inv.perform {s t : State} (hi : Inv s) {i : Input} (h : perform i { s with readData := none } = .next t) :
    Inv t := by
  rw [← step_pushed] at h
  exact stepKeepsTheInvariant _ t (hi.of_sameCore (by constructor <;> rfl)) h

/-- Settles O57: the arrangement stays, and the one core that changed made a step. -/
theorem platformKeepsItsInvariant : Obligations.PlatformKeepsItsInvariant := by
  intro i xs ys hinv h
  obtain ⟨k, hk, c, -, hc, rfl⟩ := systemPerform_cases h
  refine ⟨by rw [windowsWf_set_core, hinv.windows], fun y hy => ?_⟩
  obtain hy | rfl := List.mem_or_eq_of_mem_set hy
  · exact hinv.cores y hy
  · exact (hinv.cores _ (List.getElem_mem hk)).perform hc

theorem platformStart_getElem (bases : List Nat) (k : Nat) (hk : k < bases.length)
    (hk' : k < (platformStart bases).length) :
    (platformStart bases)[k] = { base := bases[k], core := State.reset } :=
  List.getElem_map _

theorem platformStart_inv (bases : List Nat) (h : basesWf bases = true) : PlatformInv (platformStart bases) := by
  constructor
  · rw [windowsWf, platformStart_bases, h]
  · intro x hx
    obtain ⟨b, -, rfl⟩ := List.mem_map.1 hx
    exact resetTable_reset.inv

/-- A window holds its own base. -/
theorem holds_base (x : Window) : x.holds x.base = true := by
  rw [holds_iff]; omega

/-- The platform reset at a base resets the core of that window and no other (R230). -/
theorem systemPerform_reset (xs : List Window) (k : Nat) (hk : k < xs.length) (hwf : windowsWf xs = true) :
    systemPerform (.reset xs[k].base) xs =
      .next (xs.set k { xs[k] with core := applyReset { xs[k].core with readData := none } }) := by
  refine systemPerform_at _ xs k hk _ (fun j hj hjk => ?_) (holds_base xs[k]) rfl
  rw [Bool.eq_false_iff]
  intro hholds
  exact absurd (holds_index_unique hwf hj hk hholds (holds_base xs[k])) (Nat.ne_of_lt hjk)

/-- Settles O56: the start is State.reset at every base, and a reset finds the one window that holds the base. -/
theorem instancesStartInReset : Obligations.InstancesStartInReset := by
  refine ⟨fun bases hwf => ?_, fun xs k hk hwf => ?_⟩
  · refine ⟨platformStart_inv bases hwf, List.length_map _, fun _ => rfl, fun k hk hk' => ?_⟩
    rw [platformStart_getElem bases k hk hk']
    exact ⟨rfl, resetTable_reset⟩
  · refine ⟨_, systemPerform_reset xs k hk hwf, List.length_set, fun j hj hj' => ?_⟩
    rw [List.getElem_set]
    constructor
    · intro hjk
      subst hjk
      rw [if_pos rfl]
      exact ⟨resetTable_applyReset _, rfl⟩
    · intro hjk
      rw [if_neg (Ne.symm hjk)]

end Sys2Proof.Machine
end

section
/-! PROOFS. States no host can tell apart (R20, R24, R37, R38): each operation takes such a pair to such a pair, hence each
instruction, each CMD write, each access and each step. -/

namespace Sys2Proof.Machine

/-! ## Two ways to be alike -/

/-- States with equal elements are alike, whatever their free values (R38). -/
theorem SameCore.alike {a b : State} (h : SameCore a b) (hpending : a.pending = b.pending)
    (hread : a.readData = b.readData) : Alike a b := by
  obtain ⟨hh, ht0, ht1, hf0, hf1, hbuf, hlen, hphase, hcode, hword, hop, hleft⟩ := h
  exact ⟨hpending, hread, hphase, hcode, hword, hop, hleft, fun _ => hh, fun _ => ⟨ht0, ht1⟩, fun _ => ⟨hf0, hf1⟩,
    fun _ => hlen, fun _ j _ => by rw [hbuf], fun _ _ j _ => by rw [hbuf]⟩

/-- What a host can read now, and what selects the meaning of its next word: equal in both states. -/
structure SameInterface (a b : State) : Prop where
  pending : a.pending = b.pending
  readData : a.readData = b.readData
  phase : a.phase = b.phase
  errcode : a.errcode = b.errcode
  errword : a.errword = b.errword
  rxOp : a.rxOp = b.rxOp
  rxLeft : a.rxLeft = b.rxLeft

theorem Alike.interface {a b : State} (h : Alike a b) : SameInterface a b :=
  ⟨h.pending, h.readData, h.phase, h.errcode, h.errword, h.rxOp, h.rxLeft⟩

/-- Outside ABSORB and DONE the hashing state is not observed (R37, R208). -/
theorem SameInterface.alike_of_closed {a b : State} (h : SameInterface a b) (ha : a.phase ≠ .absorb)
    (hd : a.phase ≠ .done) : Alike a b := by
  obtain ⟨hpending, hread, hphase, hcode, hword, hop, hleft⟩ := h
  exact ⟨hpending, hread, hphase, hcode, hword, hop, hleft, fun hp => (hp.elim ha hd).elim, fun hp => absurd hp ha,
    fun hp => absurd hp ha, fun hp => absurd hp ha, fun hp => absurd hp ha, fun hp => absurd hp ha⟩

/-- In DONE only the chain is observed (R152). -/
theorem SameInterface.alike_of_done {a b : State} (h : SameInterface a b) (hd : a.phase = .done) (hh : a.h = b.h) :
    Alike a b := by
  have ha : a.phase ≠ .absorb := by rw [hd]; decide
  obtain ⟨hpending, hread, hphase, hcode, hword, hop, hleft⟩ := h
  exact ⟨hpending, hread, hphase, hcode, hword, hop, hleft, fun _ => hh, fun hp => absurd hp ha, fun hp => absurd hp ha,
    fun hp => absurd hp ha, fun hp => absurd hp ha, fun hp => absurd hp ha⟩

/-- In ABSORB a stream is observed to the end of its valid bytes, and a key block to its end (R24). -/
theorem SameInterface.alike_of_stream {a b : State} (h : SameInterface a b) (hs : SameStream a b)
    (hkey : a.rxOp = .key → ∀ j (hj : j < 128), j < 64 → a.buf[j] = b.buf[j]) : Alike a b := by
  obtain ⟨hpending, hread, hphase, hcode, hword, hop, hleft⟩ := h
  exact ⟨hpending, hread, hphase, hcode, hword, hop, hleft, fun _ => hs.h, fun _ => ⟨hs.t0, hs.t1⟩,
    fun _ => ⟨hs.f0, hs.f1⟩, fun _ => hs.buflen, fun _ j hj => hs.valid j.val j.isLt hj,
    fun _ ho j hj => hkey ho j.val j.isLt hj⟩

/-! ## The operations -/

theorem SameInterface.updateBytes {a b : State} (h : SameInterface a b) (bs : List Byte) :
    SameInterface (updateBytes bs a) (updateBytes bs b) := by
  constructor <;> simp [h.pending, h.readData, h.phase, h.errcode, h.errword, h.rxOp, h.rxLeft]

theorem SameInterface.appendBytes {a b : State} (h : SameInterface a b) (bs : List Byte) :
    SameInterface (appendBytes bs a) (appendBytes bs b) :=
  ⟨h.pending, h.readData, h.phase, h.errcode, h.errword, h.rxOp, h.rxLeft⟩

theorem SameInterface.takePayload {a b : State} (h : SameInterface a b) :
    SameInterface (takePayload a) (takePayload b) := by
  have hleft : (Machine.takePayload a).rxLeft = (Machine.takePayload b).rxLeft := by
    rw [takePayload_rxLeft, takePayload_rxLeft, h.rxLeft]
  refine ⟨h.pending, h.readData, h.phase, h.errcode, h.errword, ?_, hleft⟩
  rw [takePayload_rxOp, takePayload_rxOp, hleft, h.rxOp]

theorem SameInterface.closeKeyBlock {a b : State} (h : SameInterface a b) :
    SameInterface (closeKeyBlock a) (closeKeyBlock b) := by
  constructor <;> simp [h.pending, h.readData, h.phase, h.errcode, h.errword, h.rxOp, h.rxLeft]

theorem SameInterface.finishHash {a b : State} (h : SameInterface a b) :
    SameInterface (finishHash a) (finishHash b) := by
  constructor <;> simp [h.pending, h.readData, h.errcode, h.errword, h.rxOp, h.rxLeft]

theorem Alike.applyReset {a b : State} (h : Alike a b) : Alike (applyReset a) (applyReset b) :=
  SameCore.alike (by constructor <;> rfl) h.pending rfl

theorem SameInterface.initContext_sameCore {a b : State} (h : SameInterface a b) (nn kk : Byte) :
    SameCore (initContext nn kk a) (initContext nn kk b) :=
  ⟨rfl, rfl, rfl, rfl, rfl, rfl, rfl, rfl, h.errcode, h.errword, h.rxOp, h.rxLeft⟩

theorem SameCore.startReceive {a b : State} (h : SameCore a b) (op : RxOp) (left : BitVec 24) :
    SameCore (startReceive op left a) (startReceive op left b) :=
  ⟨h.h, h.t0, h.t1, h.f0, h.f1, h.buf, h.buflen, h.phase, h.errcode, h.errword, rfl, rfl⟩

theorem Alike.initContext {a b : State} (h : Alike a b) (nn kk : Byte) :
    Alike (initContext nn kk a) (initContext nn kk b) :=
  (h.interface.initContext_sameCore nn kk).alike h.pending h.readData

theorem Alike.startKey {a b : State} (h : Alike a b) (nn kk : Byte) (left : BitVec 24) :
    Alike (startReceive .key left (Machine.initContext nn kk a)) (startReceive .key left (Machine.initContext nn kk b)) :=
  ((h.interface.initContext_sameCore nn kk).startReceive .key left).alike h.pending h.readData

/-- Announced data bytes are no key block, so the padding is not looked at. -/
theorem Alike.startData {a b : State} (h : Alike a b) (left : BitVec 24) :
    Alike (startReceive .data left a) (startReceive .data left b) :=
  ⟨h.pending, h.readData, h.phase, h.errcode, h.errword, rfl, rfl, h.chain, h.counter, h.flags, h.buflen, h.valid,
    fun _ ho => nomatch ho⟩

theorem Alike.dataword {a b : State} (h : Alike a b) (hp : a.phase = .absorb) (hle : a.buflen ≤ 128)
    (ho : a.rxOp = .data) (bs : List Byte) :
    Alike (takePayload (updateBytes bs a)) (takePayload (updateBytes bs b)) := by
  obtain ⟨hlen, hh, ht0, ht1, hf0, hf1, hbl, hv⟩ := (h.stream hp hle).updateBytes bs
  refine (h.interface.updateBytes bs).takePayload.alike_of_stream ⟨hlen, hh, ht0, ht1, hf0, hf1, hbl, hv⟩ fun hkey => ?_
  rw [takePayload_rxOp, updateBytes_rxOp, ho] at hkey
  split at hkey <;> cases hkey

/-- A key word writes inside the key block, which is the same in both states to its end: so are the valid bytes when the
last word makes the whole block valid (R106). -/
theorem Alike.keyword {a b : State} (h : Alike a b) (hi : Inv a) (ho : a.rxOp = .key) (w : Word) :
    Alike (closeKeyBlock (takePayload (appendBytes (payloadBytes a.rxLeft.toNat w) a)))
      (closeKeyBlock (takePayload (appendBytes (payloadBytes a.rxLeft.toNat w) b))) := by
  have hp := hi.rx_only_absorb (by rw [ho]; decide)
  have hroom := hi.key_room ho
  have hlen := payloadBytes_length a.rxLeft.toNat w
  generalize payloadBytes a.rxLeft.toNat w = bs at *
  have hstream := h.stream hp hi.buflen_le
  have hblock : ∀ j (hj : j < 128), j < 64 → (bufWrite a.buf a.buflen bs)[j] = (bufWrite b.buf b.buflen bs)[j] := by
    intro j hj hlt
    rw [bufWrite_get, bufWrite_get, ← hstream.buflen]
    split
    · rfl
    · exact h.keyBlock hp ho ⟨j, hj⟩ hlt
  have hiface := (h.interface.appendBytes bs).takePayload
  have hbuflen : (Machine.closeKeyBlock (takePayload (appendBytes bs a))).buflen ≤ 64 := by
    rw [closeKeyBlock_buflen, takePayload_buflen, appendBytes_buflen]
    split <;> omega
  refine hiface.closeKeyBlock.alike_of_stream ?_ ?_
  · constructor
    · omega
    · simpa using hstream.h
    · simpa using hstream.t0
    · simpa using hstream.t1
    · simpa using hstream.f0
    · simpa using hstream.f1
    · rw [closeKeyBlock_buflen, closeKeyBlock_buflen, hiface.rxLeft, takePayload_buflen, takePayload_buflen,
        appendBytes_buflen, appendBytes_buflen, hstream.buflen]
    · intro j hj hlt
      simpa using hblock j hj (by omega)
  · intro _ j hj hlt
    simpa using hblock j hj hlt

theorem Alike.finishHash {a b : State} (h : Alike a b) (hp : a.phase = .absorb) (hle : a.buflen ≤ 128) :
    Alike (finishHash a) (finishHash b) :=
  h.interface.finishHash.alike_of_done (finishHash_phase a) (h.stream hp hle).finishHash

/-! ## One instruction and one CMD write -/

/-- A header does in both states what the common phase and its operands select. -/
theorem Alike.exec_header {a b : State} (h : Alike a b) (hle : a.buflen ≤ 128) (i : Instr) (hk : i.kind = .header) :
    alikeOutcomes (exec i a) (exec i b) := by
  by_cases he : a.phase = .error
  · rw [exec_error i a he, exec_error i b (h.phase ▸ he)]
    exact h
  have he' : b.phase ≠ .error := h.phase ▸ he
  cases i with
  | init nn =>
    by_cases hn : legalDigestSize nn
    · rw [exec_init nn a he hn, exec_init nn b he' hn]
      exact h.initContext nn 0
    · rw [exec_init_bad nn a he hn, exec_init_bad nn b he' hn]
      exact h.raiseError _ _
  | initKeyed nn kk =>
    by_cases hn : legalDigestSize nn
    · by_cases hkk : legalKeyLen kk
      · rw [exec_initKeyed nn kk a he hn hkk, exec_initKeyed nn kk b he' hn hkk]
        exact h.startKey nn kk _
      · rw [exec_initKeyed_badKey nn kk a he hn hkk, exec_initKeyed_badKey nn kk b he' hn hkk]
        exact h.raiseError _ _
    · rw [exec_initKeyed_badSize nn kk a he hn, exec_initKeyed_badSize nn kk b he' hn]
      exact h.raiseError _ _
  | update len =>
    by_cases ha : a.phase = .absorb
    · by_cases hl : len = 0
      · rw [hl, exec_update_zero a ha, exec_update_zero b (h.phase ▸ ha)]
        exact h
      · rw [exec_update len a ha hl, exec_update len b (h.phase ▸ ha) hl]
        exact h.startData len
    · rw [exec_update_bad len a he ha, exec_update_bad len b he' (h.phase ▸ ha)]
      exact h.raiseError _ _
  | finalize =>
    by_cases ha : a.phase = .absorb
    · rw [exec_finalize a ha, exec_finalize b (h.phase ▸ ha)]
      exact h.finishHash ha hle
    · rw [exec_finalize_bad a he ha, exec_finalize_bad b he' (h.phase ▸ ha)]
      exact h.raiseError _ _
  | keyword w => cases hk
  | dataword w => cases hk

/-- Both states read the word in one context, and it selects one instruction (R70). -/
theorem Alike.cmdWrite {a b : State} (h : Alike a b) (hi : Inv a) (w : Word) :
    alikeOutcomes (cmdWrite w a) (cmdWrite w b) := by
  by_cases he : a.phase = .error
  · rw [cmdWrite_error w a he, cmdWrite_error w b (h.phase ▸ he)]
    exact h
  have he' : b.phase ≠ .error := h.phase ▸ he
  by_cases hl : a.rxLeft = 0
  · cases hd : decodeHeader w with
    | error r =>
      rw [cmdWrite_illegal w a r he hl hd, cmdWrite_illegal w b r he' (h.rxLeft ▸ hl) hd]
      exact h.raiseError .illegal w
    | ok i =>
      rw [cmdWrite_header w a i he hl hd, cmdWrite_header w b i he' (h.rxLeft ▸ hl) hd]
      exact h.exec_header hi.buflen_le i (encode_of_decodeHeader w i hd).1
  · have hl' : b.rxLeft ≠ 0 := h.rxLeft ▸ hl
    cases ho : a.rxOp with
    | none => exact absurd (hi.rx_closed_iff.1 ho) hl
    | key =>
      rw [cmdWrite_key w a he hl ho, cmdWrite_key w b he' hl' (h.rxOp ▸ ho), exec_keyword w a he,
        exec_keyword w b he', ← h.rxLeft]
      exact h.keyword hi ho w
    | data =>
      have hp := hi.rx_only_absorb (by rw [ho]; decide)
      rw [cmdWrite_data w a he hl ho, cmdWrite_data w b he' hl' (h.rxOp ▸ ho), exec_dataword w a he,
        exec_dataword w b he', ← h.rxLeft]
      exact h.dataword hp hi.buflen_le ho _

/-! ## Register reads and one step -/

theorem readDigest_done (i : Fin 8) (s : State) (h : s.phase = .done) : readDigest i s = returnData s.h[i] s := by
  simp only [readDigest, h]

theorem readDigest_error (i : Fin 8) (s : State) (h : s.phase = .error) : readDigest i s = returnData 0 s := by
  simp only [readDigest, h]

theorem readDigest_raises (i : Fin 8) (s : State) (h : s.phase = .idle ∨ s.phase = .absorb) :
    readDigest i s = returnData 0 (raiseError .digestRead (BitVec.ofNat 32 (0x20 + 4 * i.val)) s) := by
  rcases h with h | h <;> simp only [readDigest, h]

theorem Alike.statusWord {a b : State} (h : Alike a b) : a.statusWord = b.statusWord := by
  rw [State.statusWord, State.statusWord, h.phase, h.errcode, h.rxLeft]

theorem Alike.readDigest {a b : State} (h : Alike a b) (i : Fin 8) : Alike (readDigest i a) (readDigest i b) := by
  have hraises (hp : a.phase = .idle ∨ a.phase = .absorb) :
      Alike (Machine.readDigest i a) (Machine.readDigest i b) := by
    rw [readDigest_raises i a hp, readDigest_raises i b (h.phase ▸ hp)]
    exact (h.raiseError _ _).returnData 0
  cases hp : a.phase with
  | idle => exact hraises (.inl hp)
  | absorb => exact hraises (.inr hp)
  | done =>
    rw [readDigest_done i a hp, readDigest_done i b (h.phase ▸ hp), h.chain (.inr hp)]
    exact h.returnData _
  | error =>
    rw [readDigest_error i a hp, readDigest_error i b (h.phase ▸ hp)]
    exact h.returnData 0

theorem Alike.readRegister {a b : State} (h : Alike a b) (off : Nat) :
    Alike (readRegister off a) (readRegister off b) := by
  unfold Machine.readRegister
  split
  · rw [h.statusWord]
    exact h.returnData _
  · split
    · rw [h.errword]
      exact h.returnData _
    · split
      · exact h.readDigest _
      · exact h.returnData 0

theorem Alike.perform {a b : State} (h : Alike a b) (hi : Inv a) (i : Input) :
    alikeOutcomes (perform i a) (perform i b) := by
  cases i with
  | reset => exact h.applyReset
  | write size off w =>
    rw [Machine.perform, Machine.perform, busWrite, busWrite]
    split
    · rfl
    · split
      · exact h.cmdWrite hi w
      · exact h
  | read size off =>
    rw [Machine.perform, Machine.perform, busRead, busRead]
    split
    · rfl
    · exact h.readRegister off

theorem Alike.step {a b : State} (h : Alike a b) (hi : Inv a) : alikeOutcomes (step a) (step b) := by
  cases hp : a.pending with
  | nil =>
    rw [step_nil a hp, step_nil b (h.pending ▸ hp)]
    exact h
  | cons i rest =>
    rw [step_cons i rest a hp, step_cons i rest b (h.pending ▸ hp)]
    exact (h.dropInput rest).perform (hi.dropInput rest) i

/-- Settles O54: the step treats alike states alike, and the two kinds of pair are alike by what Alike looks at. -/
theorem unobservableStateStaysUnobservable : Obligations.UnobservableStateStaysUnobservable := by
  refine ⟨fun a b hi _ h => ⟨h.step hi, h.statusWord⟩, fun a b h => h.alike, ?_⟩
  intro s h t0 t1 f0 f1 buf buflen hp
  exact SameInterface.alike_of_closed ⟨rfl, rfl, rfl, rfl, rfl, rfl, rfl⟩ (by rw [hp]; decide) (by rw [hp]; decide)

end Sys2Proof.Machine
end

section
/-! PROOFS. The register window and the words that cross it (R51 to R57, R60): the accesses that change nothing or have no
meaning, the step as one access, and the byte order of payload and digest words. -/

namespace Sys2Proof.Machine

/-! ## Accesses without effect or meaning -/

/-- The offsets between ERRWORD and DIGEST0 hold no register (R53). -/
theorem readRegister_reserved (off : Nat) (s : State) (hlo : 0x0C ≤ off) (hhi : off < 0x20) :
    readRegister off s = returnData 0 s := by
  rw [readRegister, if_neg (by omega), if_neg (by omega), dif_neg (by omega)]

theorem busWrite_ignored (off : Nat) (w : Word) (s : State) (h4 : off % 4 = 0) (h0 : 0 < off) (h : off < 64) :
    busWrite .word off w s = .next s := by
  rw [busWrite_word off w s h4 h, if_neg (by omega)]

/-- The legal accesses are the aligned words (R52), so any other access has a reason to be refused. -/
theorem accessProblem_some (size : AccessSize) (off : Nat) (h : size ≠ .word ∨ off % 4 ≠ 0) :
    ∃ r, accessProblem size off = some r := by
  refine Option.ne_none_iff_exists'.mp fun hnone => ?_
  obtain ⟨hsize, halign, -⟩ := accessProblem_none hnone
  exact h.elim (· hsize) (· halign)

/-- Settles O21: the five offsets lie between ERRWORD and DIGEST0, aligned. -/
theorem reservedOffsetsAreInert : Obligations.ReservedOffsetsAreInert := by
  intro s w off hoff
  have hrange : off % 4 = 0 ∧ 0x0C ≤ off ∧ off < 0x20 := by
    revert off
    decide
  obtain ⟨h4, hlo, hhi⟩ := hrange
  refine ⟨?_, busWrite_ignored off w s h4 (by omega) (by omega)⟩
  rw [busRead_word off s h4 (by omega), readRegister_reserved off s hlo hhi]
  rfl

/-- Settles O22: CMD at offset 0 is the only register a write acts on. -/
theorem writesOutsideCmdAreIgnored : Obligations.WritesOutsideCmdAreIgnored :=
  fun s w off h4 h0 h => busWrite_ignored off w s h4 h0 h

/-- Settles O23: reads and writes share the check that refuses the access. -/
theorem otherAccessesAreRefused : Obligations.OtherAccessesAreRefused := by
  intro s size off w h
  obtain ⟨r, hr⟩ := accessProblem_some size off h
  exact ⟨⟨r, by rw [busRead, hr]⟩, ⟨r, by rw [busWrite, hr]⟩⟩

/-! ## The step as one access -/

theorem busWrite_cmd (w : Word) (s : State) : busWrite .word 0x00 w s = cmdWrite w s := by
  rw [busWrite_word 0x00 w s rfl (by decide), if_pos rfl]

/-- Settles O3: a step performs the first pending input, which is a write or a read of the window. -/
theorem stepPerformsTheNextInput : Obligations.StepPerformsTheNextInput := by
  intro s rest
  refine ⟨fun w hp => ?_, fun size off w hp => ?_, fun size off hp => ?_⟩
  · rw [step_cons _ rest s hp, perform, busWrite_cmd, dropInput]
  · rw [step_cons _ rest s hp, perform, dropInput]
  · rw [step_cons _ rest s hp, perform, dropInput]

/-- Settles O4, by the receiver's three contexts (R70); a payload word decodes to its own instruction. -/
theorem stepRunsTheDecodedInstruction : Obligations.StepRunsTheDecodedInstruction := by
  intro s w rest i hp he hctx
  rw [(stepPerformsTheNextInput s rest).1 w hp]
  obtain ⟨hl, hd⟩ | ⟨hl, ho, hd⟩ | ⟨hl, ho, hd⟩ := hctx
  · exact cmdWrite_header w _ i he hl hd
  · cases hd
    exact cmdWrite_key w _ he hl ho
  · cases hd
    exact cmdWrite_data w _ he hl ho

/-! ## Byte order -/

/-- In the lanes of a word list, four to a word, place `j` is lane `j mod 4` of word `j / 4` (R57). -/
theorem flatMap_lanes_getD (ws : List Word) (j : Nat) :
    (ws.flatMap lanes).getD j 0 = lane (ws.getD (j / 4) 0) (j % 4) := by
  induction ws generalizing j with
  | nil => simp [lane]
  | cons w ws ih =>
    rw [List.flatMap_cons]
    by_cases hfirst : j < 4
    · rw [List.getD_append _ _ _ _ hfirst, lanes_getD w j hfirst, Nat.div_eq_of_lt hfirst, Nat.mod_eq_of_lt hfirst,
        List.getD_cons_zero]
    · obtain ⟨k, rfl⟩ : ∃ k, j = k + 4 := ⟨j - 4, by omega⟩
      rw [List.getD_append_right _ _ _ _ (Nat.le_add_left 4 k), lanes_length, Nat.add_sub_cancel, ih,
        Nat.add_div_right k (by decide), Nat.add_mod_right, List.getD_cons_succ]

/-- The packed words' lanes begin with the bytes, so byte `j` is the lane at place `j`. -/
theorem lane_packWords (bs : List Byte) (j : Nat) (hj : j < bs.length) :
    lane ((packWords bs).getD (j / 4) 0) (j % 4) = bs.getD j 0 := by
  have htake := congrArg (·.getD j 0) (packWords_lanes bs)
  rw [← flatMap_lanes_getD, ← htake, List.getD_eq_getElem?_getD, List.getD_eq_getElem?_getD,
    List.getElem?_take_of_lt hj]

/-- Settles O10: each packed byte is a lane, and a lane is a shift and a truncation. -/
theorem payloadPackingIsLittleEndian : Obligations.PayloadPackingIsLittleEndian := by
  refine ⟨fun bs j hj => ?_, packWords_length, wordOfBytes_lanes⟩
  rw [← lane_eq_shift]
  exact lane_packWords bs j hj

theorem digestBytes_getD (h : Vector Word 8) (k : Fin 32) : (digestBytes h).getD k.val 0 = digestByte h k := by
  rw [digestBytes, List.getD_eq_getElem _ _ (by simp), List.getElem_ofFn]

/-- Settles O39: a digest byte is a lane of its chain word, a shift and a truncation. -/
theorem digestBytesAreLittleEndian : Obligations.DigestBytesAreLittleEndian :=
  fun h => ⟨fun _ => lane_eq_shift _ _, List.length_ofFn, digestBytes_getD h, fun _ => rfl⟩

end Sys2Proof.Machine
end

section
/-! PROOFS. The encoding (R70 to R83): decoder and encoder are inverse in each context, the pairs of the opcode map are
the words of the four headers, and a pseudo-instruction is the lines it expands to. -/

namespace Sys2Proof.Machine

/-! ## Round trips -/

/-- Settles O6: a header word has its fields in place, and a payload word is its own operand. -/
theorem decodeAfterEncode : Obligations.DecodeAfterEncode := by
  intro i
  cases i with
  | init nn => exact decodeHeader_encode _ rfl
  | initKeyed nn kk => exact decodeHeader_encode _ rfl
  | keyword w => rfl
  | update len => exact decodeHeader_encode _ rfl
  | dataword w => rfl
  | finalize => exact decodeHeader_encode _ rfl

/-- Settles O7, context by context; a payload word decodes to the instruction that holds it whole. -/
theorem encodeAfterDecode : Obligations.EncodeAfterDecode := by
  intro k w i h
  cases k with
  | header => exact encode_of_decodeHeader w i h
  | key => cases h; exact ⟨rfl, rfl⟩
  | data => cases h; exact ⟨rfl, rfl⟩

/-- Settles O9: each word of the table is the encoding of its command. -/
theorem writtenOutWordsDecode : Obligations.WrittenOutWordsDecode :=
  ⟨decodeHeader_encode (.init 32) rfl, decodeHeader_encode (.init 16) rfl, decodeHeader_encode (.initKeyed 32 32) rfl,
    decodeHeader_encode (.initKeyed 32 1) rfl, decodeHeader_encode (.update 3) rfl, rfl,
    decodeHeader_encode (.update 0) rfl, decodeHeader_encode (.update 65) rfl, decodeHeader_encode .finalize rfl⟩

/-! ## The opcode map -/

theorem decodeHeader_eq_ok_iff (w : Word) (i : Instr) (hk : i.kind = .header) :
    decodeHeader w = .ok i ↔ encode i = w :=
  ⟨fun h => (encode_of_decodeHeader w i h).2, fun h => h ▸ decodeHeader_encode i hk⟩

/-- The operands of a decoded header are the fields of its word. -/
theorem decodeHeader_ok_fields {w : Word} {i : Instr} (h : decodeHeader w = .ok i) :
    i = .init (nnField w) ∨ i = .initKeyed (nnField w) (kkField w) ∨ i = .update (lenField w) ∨ i = .finalize := by
  unfold decodeHeader at h
  split at h
  · split at h
    · cases h; exact .inl rfl
    · cases h
  · split at h
    · split at h
      · cases h; exact .inr (.inl rfl)
      · cases h
    · split at h
      · cases h; exact .inr (.inr (.inl rfl))
      · split at h
        · split at h
          · cases h; exact .inr (.inr (.inr rfl))
          · cases h
        · cases h

/-- A word that meets a match and mask pair is the match and the word's own bits at the places the mask leaves open. -/
theorem and_mask_eq_iff {pattern mask : Word} (w : Word) (hp : pattern &&& mask = pattern) :
    w &&& mask = pattern ↔ pattern ||| (w &&& ~~~mask) = w := by
  constructor
  · intro h
    rw [← h, ← BitVec.and_or_distrib_left, BitVec.or_not_self, BitVec.and_allOnes]
  · intro h
    rw [← h, BitVec.and_or_distrib_right, hp, BitVec.and_assoc, BitVec.not_and_self]
    simp

theorem nnField_in_place (w : Word) : (nnField w).setWidth 32 <<< 8 = w &&& 0x0000FF00 := by
  unfold nnField
  ext i hi
  interval_cases i <;> simp [BitVec.getLsbD_eq_getElem]

theorem kkField_in_place (w : Word) : (kkField w).setWidth 32 <<< 16 = w &&& 0x00FF0000 := by
  unfold kkField
  ext i hi
  interval_cases i <;> simp [BitVec.getLsbD_eq_getElem]

theorem lenField_in_place (w : Word) : (lenField w).setWidth 32 <<< 8 = w &&& 0xFFFFFF00 := by
  unfold lenField
  ext i hi
  interval_cases i <;> simp [BitVec.getLsbD_eq_getElem]

theorem init_match_iff (w : Word) : w &&& 0xFFFF00FF = 0x00000001 ↔ decodeHeader w = .ok (.init (nnField w)) := by
  rw [and_mask_eq_iff w rfl, decodeHeader_eq_ok_iff w _ rfl, encode, nnField_in_place]
  rfl

theorem initKeyed_match_iff (w : Word) :
    w &&& 0xFF0000FF = 0x00000002 ↔ decodeHeader w = .ok (.initKeyed (nnField w) (kkField w)) := by
  rw [and_mask_eq_iff w rfl, decodeHeader_eq_ok_iff w _ rfl, encode, nnField_in_place, kkField_in_place,
    BitVec.or_assoc, ← BitVec.and_or_distrib_left]
  rfl

theorem update_match_iff (w : Word) : w &&& 0x000000FF = 0x00000003 ↔ decodeHeader w = .ok (.update (lenField w)) := by
  rw [and_mask_eq_iff w rfl, decodeHeader_eq_ok_iff w _ rfl, encode, lenField_in_place]
  rfl

theorem finalize_match_iff (w : Word) : w &&& 0xFFFFFFFF = 0x00000004 ↔ decodeHeader w = .ok .finalize := by
  rw [and_mask_eq_iff w rfl, decodeHeader_eq_ok_iff w _ rfl, encode]
  simp

/-- Settles O8: each pair is met by the words of its command, so a word that meets none decodes to none. -/
theorem headersMatchTheOpcodeMap : Obligations.HeadersMatchTheOpcodeMap := by
  intro w
  refine ⟨init_match_iff w, initKeyed_match_iff w, update_match_iff w, finalize_match_iff w, ?_⟩
  intro hinit hkeyed hupdate hfinal s hp hl
  cases hd : decodeHeader w with
  | error r => exact cmdWrite_illegal w s r hp hl hd
  | ok i =>
    obtain rfl | rfl | rfl | rfl := decodeHeader_ok_fields hd
    · exact absurd ((init_match_iff w).2 hd) hinit
    · exact absurd ((initKeyed_match_iff w).2 hd) hkeyed
    · exact absurd ((update_match_iff w).2 hd) hupdate
    · exact absurd ((finalize_match_iff w).2 hd) hfinal

/-! ## The context of a CMD word -/

/-- Settles O5: ERROR, a pending payload and a header each have their own law of a CMD write. -/
theorem cmdWordIsReadFromTheState : Obligations.CmdWordIsReadFromTheState :=
  fun w s =>
    ⟨cmdWrite_error w s, fun hp hl => ⟨cmdWrite_key w s hp hl, cmdWrite_data w s hp hl⟩,
      fun hp hl => ⟨fun i => cmdWrite_header w s i hp hl, fun r => cmdWrite_illegal w s r hp hl⟩⟩

/-! ## Pseudo-instructions -/

theorem updateChunks_short (turns : Nat) (bs : List Byte) (h : bs.length ≤ Config.maxUpdate) :
    updateChunks turns bs = [bs] := by
  cases turns with
  | zero => rfl
  | succ turns => rw [updateChunks, if_pos h]

theorem updateBytesWords_short (bs : List Byte) (h : bs.length ≤ Config.maxUpdate) :
    updateBytesWords bs = updateWords bs := by
  rw [updateBytesWords, updateChunks_short _ bs h, List.flatMap_singleton]

/-- A message too long for LEN is its first 2^24 - 1 bytes and then the rest (R82). -/
theorem updateBytesWords_long (bs : List Byte) (h : Config.maxUpdate < bs.length) :
    updateBytesWords bs =
      updateBytesWords (bs.take Config.maxUpdate) ++ updateBytesWords (bs.drop Config.maxUpdate) := by
  have hrest : (bs.drop Config.maxUpdate).length ≤ bs.length := by rw [List.length_drop]; exact Nat.sub_le _ _
  rw [updateBytesWords_short _ (List.length_take_le _ _), updateBytesWords,
    updateChunks_turns _ (bs.length + 1) bs (Nat.le_refl _) (Nat.le_succ _), updateChunks,
    if_neg (Nat.not_le.mpr h), List.flatMap_cons, updateBytesWords, updateChunks_turns _ _ _ hrest (Nat.le_refl _)]

/-- Reading an ASCII string as bytes gives the codes it was written with. -/
theorem asciiBytes_eq (bs : List Byte) :
    (bs.map fun b => Char.ofNat (b.toNat % 128)).map (fun c => BitVec.ofNat 8 c.toNat) =
      bs.map fun b => BitVec.ofNat 8 (b.toNat % 128) := by
  rw [List.map_map]
  refine List.map_congr_left fun b _ => ?_
  rw [Function.comp_apply, Char.toNat_ofNat, if_pos (.inl (by omega))]

/-- Settles O11: each side is the inputs of the same CMD words and reads; the two lengths of a message are the two cases
of its cut. -/
theorem pseudoInstructionsExpand : Obligations.PseudoInstructionsExpand := by
  intro nn key bs
  refine ⟨fun hk => ?_, fun hb => ?_, fun hb => ?_, ?_, rfl, ?_⟩
  · simp [AsmLine.inputs, assemble, initKeyWords, hk]
  · have hwords := updateBytesWords_short bs (Nat.le_of_lt_succ hb)
    simp [AsmLine.inputs, assemble, hwords, updateWords]
  · have hwords := updateBytesWords_long bs hb
    rw [Config.maxUpdate] at hwords
    simp [AsmLine.inputs, assemble, hwords]
  · rw [AsmLine.inputs, AsmLine.inputs, asciiBytes_eq]
  · simp [AsmLine.inputs, assemble, hashCommand]

end Sys2Proof.Machine
end

section
/-! PROOFS. One payload word (R76, R130, R132): what it leaves of the receiver, the buffer and the chain, and that only its
carried lanes matter. -/

namespace Sys2Proof.Machine

/-- Settles O34: a payload word acts by its carried bytes alone, and feeding them raises nothing. -/
theorem unusedLanesAreIgnored : Obligations.UnusedLanesAreIgnored := by
  intro w w' s hp hlanes
  have hbytes : payloadBytes s.rxLeft.toNat w = payloadBytes s.rxLeft.toNat w' := payloadBytes_congr _ w w' hlanes
  refine ⟨?_, ?_, ⟨_, exec_keyword w s hp, ?_, ?_⟩, ⟨_, exec_dataword w s hp, ?_, ?_⟩⟩
  · rw [exec_keyword w s hp, exec_keyword w' s hp, hbytes]
  · rw [exec_dataword w s hp, exec_dataword w' s hp, hbytes]
  all_goals simp

/-- The receiver closes on the word that carries its last bytes (R106, R132). -/
theorem takePayload_rxOp_eq (s : State) : (takePayload s).rxOp = if s.rxLeft.toNat ≤ 4 then .none else s.rxOp := by
  have hclosed : (takePayload s).rxLeft = 0 ↔ s.rxLeft.toNat ≤ 4 := by
    rw [BitVec.toNat_eq, takePayload_rxLeft_toNat]
    simp only [BitVec.ofNat_eq_ofNat, BitVec.toNat_ofNat]; omega
  rw [takePayload_rxOp, if_congr hclosed rfl rfl]

/-- A payload in the buffer: each of its bytes is a lane of the word (R57). -/
theorem bufWrite_payloadBytes_get (buf : Vector Byte 128) (o left : Nat) (w : Word) (j : Nat) (hj : j < 128) :
    (bufWrite buf o (payloadBytes left w))[j] = if o ≤ j ∧ j < o + min 4 left then lane w (j - o) else buf[j] := by
  rw [bufWrite_get, payloadBytes_length]
  split
  · next hin => exact payloadBytes_getD left w _ (by omega)
  · rfl

/-! ## An update with one AdvanceBlock (R130, R134) -/

/-- Bytes written behind the block in front leave the block as it was. -/
theorem frontBlock_bufWrite_behind (buf : Vector Byte 128) (o : Nat) (bs : List Byte) (ho : 64 ≤ o) :
    frontBlock (bufWrite buf o bs) = frontBlock buf := by
  apply Vector.ext
  intro i hi
  rw [frontBlock_get _ i hi, frontBlock_get _ i hi, bufWrite_get, if_neg (by omega)]

/-- The valid bytes it leaves: those behind the block, then the data. -/
theorem updateBytes_one_advance_buf (data : List Byte) (s : State) (hs : s.buflen ≤ 128)
    (h : 128 < s.buflen + data.length) (h' : s.buflen + data.length ≤ 192) (j : Nat) (hj : j < 128)
    (hv : j < s.buflen + data.length - 64) :
    (updateBytes data s).buf[j] =
      if hold : j + 64 < s.buflen then s.buf[j + 64] else data.getD (j + 64 - s.buflen) 0 := by
  have hfill : (data.take (128 - s.buflen)).length = 128 - s.buflen := by rw [List.length_take]; omega
  have hbuflen : (advanceBlock (appendBytes (data.take (128 - s.buflen)) s)).buflen = 64 := by
    rw [advanceBlock_buflen, appendBytes_buflen, hfill]; omega
  simp only [updateBytes_one_advance data s hs h h', appendBytes_buf, hbuflen, bufWrite_get, List.length_drop,
    advanceBlock_buf, shiftedBytes_get, hfill]
  by_cases hfront : j < 64
  · rw [if_neg (by omega), dif_pos hfront]
    by_cases hold : j + 64 < s.buflen
    · rw [if_neg (by omega), dif_pos hold]
    · rw [if_pos (by omega), dif_neg hold, List.getD_eq_getElem?_getD, List.getElem?_take_of_lt (by omega),
        List.getD_eq_getElem?_getD]
  · rw [if_pos (by omega), dif_neg (by omega), List.getD_eq_getElem?_getD, List.getElem?_drop,
      List.getD_eq_getElem?_getD]
    congr 2; omega

/-- What it leaves of the counts and the chain, when the block in front was valid before it. -/
theorem updateBytes_one_advance_context (data : List Byte) (s : State) (hs : s.buflen ≤ 128)
    (h : 128 < s.buflen + data.length) (h' : s.buflen + data.length ≤ 192) (hfront : 64 ≤ s.buflen) :
    (updateBytes data s).buflen = s.buflen + data.length - 64 ∧
    (updateBytes data s).t0 = countLow s 64 ∧ (updateBytes data s).t1 = countHigh s 64 ∧
    (updateBytes data s).h = compress s.h (countLow s 64) (countHigh s 64) s.f0 s.f1 (frontBlock s.buf) ∧
    (updateBytes data s).freeCtr = s.freeCtr + 1 := by
  rw [updateBytes_one_advance data s hs h h']
  refine ⟨?_, incT_t0_eq 64 s, incT_t1_eq 64 s, ?_, rfl⟩
  · simp only [appendBytes_buflen, advanceBlock_buflen, List.length_take, List.length_drop]; omega
  · rw [appendBytes_h, advanceBlock_h, appendBytes_buf, frontBlock_bufWrite_behind _ _ _ hfront, incT_t0_eq, incT_t1_eq]
    rfl

/-- Settles O33: the bytes either fit, or they overflow the buffer by at most four and one block is consumed. -/
theorem dataWordFeedsItsBytes : Obligations.DataWordFeedsItsBytes := by
  intro w s hp hs
  have hlen := payloadBytes_length s.rxLeft.toNat w
  refine ⟨_, exec_dataword w s hp, ?_, ?_, updateBytes_f0 _ s, updateBytes_f1 _ s, updateBytes_phase _ s,
    updateBytes_errcode _ s, updateBytes_errword _ s, updateBytes_pending _ s, updateBytes_readData _ s,
    fun hfit => ?_, fun hover => ?_⟩
  · rw [takePayload_rxLeft_toNat, updateBytes_rxLeft]
  · rw [takePayload_rxOp_eq, updateBytes_rxLeft, updateBytes_rxOp]
  · rw [updateBytes_room _ s (by omega)]
    refine ⟨congrArg (s.buflen + ·) hlen, rfl, rfl, rfl, rfl, fun j => ?_⟩
    rw [takePayload_buflen, appendBytes_buflen, hlen]
    exact bufWrite_payloadBytes_get s.buf s.buflen _ w j j.isLt
  · obtain ⟨hbuflen, ht0, ht1, hh, hctr⟩ := updateBytes_one_advance_context (payloadBytes s.rxLeft.toNat w) s hs
      (by omega) (by omega) (by omega)
    have hbuf := updateBytes_one_advance_buf (payloadBytes s.rxLeft.toNat w) s hs (by omega) (by omega)
    rw [hlen] at hbuflen hbuf
    refine ⟨hbuflen, ht0, ht1, hh.trans (by rw [frontBlock_eq]), hctr, fun j => ?_, fun j hj hv => ?_⟩
    · refine (hbuf j (by omega) (by omega)).trans ?_
      split
      · rfl
      · exact payloadBytes_getD _ w _ (by omega)
    · rw [takePayload_buflen, hbuflen] at hv
      refine (hbuf j j.isLt hv).trans ?_
      rw [dif_neg (by omega)]
      exact payloadBytes_getD _ w _ (by omega)

end Sys2Proof.Machine
end

section
/-! PROOFS. Construction (R100 to R107): the parameter words and the chain they seed, what INIT and the INIT_KEYED header
leave, and key reception, word by word and whole. -/

namespace Sys2Proof.Machine

/-! ## The parameter words and the seed of the chain (R100 to R102) -/

/-- PW[0] is loaded from the four bytes the block gives a value. -/
theorem paramWord_zero (nn kk : Byte) :
    paramWord nn kk 0 = nn.setWidth 32 ||| (kk.setWidth 32 <<< 8) ||| (0x00010000 : Word) ||| (0x01000000 : Word) := by
  simp [paramWord, le32, paramBlock_get, wordOfBytes]

/-- The other parameter words are loaded from the zero bytes P[4..31]. -/
theorem paramWord_of_ne_zero (nn kk : Byte) (i : Fin 8) (hi : i ≠ 0) : paramWord nn kk i = 0 := by
  have hpos : 0 < i.val := Nat.pos_of_ne_zero fun h => hi (Fin.ext h)
  have hbyte (j : Nat) (hj : j < 64) (h4 : 4 ≤ j) : (paramBlock nn kk)[j] = 0 := by
    rw [paramBlock_get, if_neg (by omega), if_neg (by omega), if_neg (by omega), if_neg (by omega)]
  rw [paramWord, le32, hbyte _ _ (by omega), hbyte _ _ (by omega), hbyte _ _ (by omega), hbyte _ _ (by omega)]
  rfl

/-- Settles O26: PW[0] and the seven others are loaded from different bytes of the block. -/
theorem parameterWordsFromTheBlock : Obligations.ParameterWordsFromTheBlock :=
  fun nn kk => ⟨paramWord_zero nn kk, paramWord_of_ne_zero nn kk⟩

/-- The sizes reach the first word of the chain alone. -/
theorem seedChain_eq_set (nn kk : Byte) : seedChain nn kk = iv.set 0 ((0x6A09E667 : Word) ^^^ paramWord nn kk 0) := by
  apply Vector.ext
  intro i hi
  rw [seedChain, Vector.getElem_ofFn, Vector.getElem_set]
  split
  · next h0 => subst h0; rfl
  · next h0 =>
    rw [paramWord_of_ne_zero nn kk ⟨i, hi⟩ fun h => h0 (congrArg Fin.val h).symm]
    exact BitVec.xor_zero

/-- PW[0] with its constant bytes joined, as R101 spells the word 0x0101_kk_nn. -/
theorem paramWord_zero_joined (nn kk : Byte) :
    paramWord nn kk 0 = (0x01010000 : Word) ||| (kk.setWidth 32 <<< 8) ||| nn.setWidth 32 := by
  have hconst : (0x00010000 : Word) ||| 0x01000000 = 0x01010000 := rfl
  rw [paramWord_zero, BitVec.or_assoc _ 0x00010000, hconst, BitVec.or_comm, BitVec.or_comm (nn.setWidth 32),
    BitVec.or_assoc]

/-- Without a key the KK byte of PW[0] is 0 (R100). -/
theorem paramWord_zero_unkeyed (nn : Byte) : paramWord nn 0 0 = (0x01010000 : Word) ||| nn.setWidth 32 := by
  have hkk : (0x01010000 : Word) ||| ((0 : Byte).setWidth 32 <<< 8) = 0x01010000 := rfl
  rw [paramWord_zero_joined, hkk]

theorem initContext_eq (nn kk : Byte) (s : State) :
    initContext nn kk s = { s with
      h := #v[(0x6A09E667 : Word) ^^^ paramWord nn kk 0, 0xBB67AE85, 0x3C6EF372, 0xA54FF53A, 0x510E527F, 0x9B05688C,
              0x1F83D9AB, 0x5BE0CD19],
      t0 := 0, t1 := 0, f0 := 0, f1 := 0, buflen := 0, buf := Vector.replicate 128 0, phase := .absorb } := by
  have hseed := seedChain_eq_set nn kk
  rw [seedChain] at hseed
  rw [initContext, hseed]
  rfl

/-- Settles O27: legal sizes pass the checks of both headers, and InitContext seeds the chain with PW[0]. -/
theorem constructionSeedsTheContext : Obligations.ConstructionSeedsTheContext := by
  intro nn kk s hp hn1 hn32
  constructor
  · rw [exec_init nn s hp ⟨hn1, hn32⟩, initContext_eq, paramWord_zero_unkeyed]
  · intro hk1 hk32
    rw [exec_initKeyed nn kk s hp ⟨hn1, hn32⟩ ⟨hk1, hk32⟩, initContext_eq, paramWord_zero_joined]
    rfl

/-! ## Key reception (R106, R107) -/

/-- The word that carries the last pending bytes leaves none (R106, R132). -/
theorem takePayload_rxLeft_eq_zero_iff (s : State) : (takePayload s).rxLeft = 0 ↔ s.rxLeft.toNat ≤ 4 := by
  rw [BitVec.toNat_eq, takePayload_rxLeft_toNat]
  simp only [BitVec.ofNat_eq_ofNat, BitVec.toNat_ofNat]; omega

/-- The key block is full on the word that carries its last key bytes. -/
theorem closeKeyBlock_takePayload_buflen (s : State) :
    (closeKeyBlock (takePayload s)).buflen = if s.rxLeft.toNat ≤ 4 then 64 else s.buflen := by
  rw [closeKeyBlock_buflen, if_congr (takePayload_rxLeft_eq_zero_iff s) rfl rfl, takePayload_buflen]

/-- Settles O28: the carried lanes are written at the end of the key so far, and the word that carries the last of them
closes the receiver and the block. -/
theorem keyWordStoresItsBytes : Obligations.KeyWordStoresItsBytes := by
  intro w s hp
  refine ⟨_, exec_keyword w s hp, ?_, fun hlast => ⟨?_, ?_⟩, fun hmore => ⟨?_, ?_⟩, fun j => ?_, ?_⟩
  · rw [closeKeyBlock_rxLeft, takePayload_rxLeft_toNat, appendBytes_rxLeft]
  · rw [closeKeyBlock_takePayload_buflen, appendBytes_rxLeft, if_pos hlast]
  · rw [closeKeyBlock_rxOp, takePayload_rxOp_eq, appendBytes_rxLeft, if_pos hlast]
  · rw [closeKeyBlock_takePayload_buflen, appendBytes_rxLeft, if_neg (by omega), appendBytes_buflen,
      payloadBytes_length, Nat.min_eq_left hmore.le]
  · rw [closeKeyBlock_rxOp, takePayload_rxOp_eq, appendBytes_rxLeft, if_neg (by omega), appendBytes_rxOp]
  · rw [closeKeyBlock_buf]
    exact bufWrite_payloadBytes_get s.buf s.buflen _ w j j.isLt
  · simp

/-- InitContext and the receiver do not touch each other. -/
theorem startReceive_initContext (op : RxOp) (left : BitVec 24) (nn kk : Byte) (s : State) :
    startReceive op left (initContext nn kk s) = initContext nn kk (startReceive op left s) := rfl

/-- Settles O29: the key words leave the bytes of the key in a block that InitContext cleared, which is the zero-padded
key. -/
theorem keyReceptionEqualsUpdate : Obligations.KeyReceptionEqualsUpdate := by
  intro nn kk ws s hp hl hn1 hn32 hk1 hk32 hws
  have hnat : (kk.setWidth 24).toNat = kk.toNat := BitVec.toNat_setWidth_of_le (by decide)
  have hleft : kk.setWidth 24 ≠ 0 := fun h0 =>
    absurd (congrArg BitVec.toNat h0) (by rw [hnat]; exact Nat.ne_of_gt hk1)
  have hlen : ((ws.flatMap lanes).take kk.toNat).length = kk.toNat := by
    simp only [List.length_take, List.length_flatMap, lanes_length, List.map_const', List.sum_replicate, smul_eq_mul]
    omega
  have hclosed : startReceive .none 0 s = { s with rxOp := .none } := by rw [startReceive, ← hl]
  rw [cmdWrites, cmdWrite_encode _ s rfl hp hl, exec_initKeyed nn kk s hp ⟨hn1, hn32⟩ ⟨hk1, hk32⟩]
  simp only
  rw [cmdWrites_key ws _ _ (by rw [initContext_phase]; decide) hleft (by rw [hnat, hws]), hnat,
    key_block_padded _ _ (by omega) rfl rfl, hlen, ← updateBytes_startReceive, startReceive_initContext, hclosed]

end Sys2Proof.Machine
end

section
/-! PROOFS. UPDATE (R130 to R137): AdvanceBlock, the UPDATE header, feeding in pieces and by data words, the buffer after a
whole stream, and the buffer shifts of one step. -/

namespace Sys2Proof.Machine

/-! ## AdvanceBlock (R134) -/

theorem advanceBlock_buf_front (s : State) (j : Fin 64) : (advanceBlock s).buf[j.val] = s.buf[j.val + 64] :=
  (shiftedBytes_get s.buf s.freeCtr j.val (by omega)).trans (dif_pos j.isLt)

/-- Settles O32: the counter words and the block are what the compression reads, and the shift brings the second half
down. -/
theorem advanceBlockConsumesTheFront : Obligations.AdvanceBlockConsumesTheFront := by
  intro s
  have ht0 := incT_t0_eq 64 s
  have ht1 := incT_t1_eq 64 s
  refine ⟨ht0, ht1, ?_, advanceBlock_buf_front s, rfl, rfl, rfl, rfl, rfl, rfl, rfl, rfl, rfl, rfl, rfl⟩
  rw [advanceBlock_h, ht0, ht1, frontBlock_eq]

/-! ## UPDATE and its data words (R130 to R132) -/

/-- Settles O30: ABSORB passes the check of the phase, and LEN 0 alone leaves the receiver closed. -/
theorem updateHeaderOpensTheReceiver : Obligations.UpdateHeaderOpensTheReceiver := by
  intro len s hp
  split
  · next hzero => rw [hzero, exec_update_zero s hp]
  · next hlen => exact exec_update len s hp hlen

theorem updateBytes_append (a b : List Byte) (s : State) (hs : s.buflen ≤ 128) :
    updateBytes (a ++ b) s = updateBytes b (updateBytes a s) := by
  rw [updateBytes_eq_foldl _ s hs, updateBytes_eq_foldl b _ (updateBytes_buflen_le a s hs), updateBytes_eq_foldl a s hs,
    List.foldl_append]

/-- Settles O35: feeding is byte by byte, so where the bytes are cut does not matter. -/
theorem chunkingInvariance : Obligations.ChunkingInvariance :=
  fun a b s hs => (updateBytes_append a b s hs).symm

theorem updateBytes_nil (s : State) (hs : s.buflen ≤ 128) : updateBytes [] s = s := by
  rw [updateBytes_room [] s hs, appendBytes_nil]

/-- Closing a closed receiver changes nothing. -/
theorem startReceive_closed (s : State) (ho : s.rxOp = .none) (hl : s.rxLeft = 0) : startReceive .none 0 s = s := by
  rw [startReceive, ← ho, ← hl]

/-- Settles O36: LEN 0 has no data words and changes nothing; else the words feed the LEN bytes and close the receiver,
which was closed before. -/
theorem dataWordsEqualOneUpdate : Obligations.DataWordsEqualOneUpdate := by
  intro len ws s hp hl ho hs hws
  have hne : s.phase ≠ .error := by rw [hp]; decide
  rw [cmdWrites, cmdWrite_encode (.update len) s rfl hne hl]
  by_cases hzero : len = 0
  · subst hzero
    have hnil : ws = [] := List.eq_nil_of_length_eq_zero hws
    subst hnil
    rw [exec_update_zero s hp]
    exact congrArg Host.Outcome.next (updateBytes_nil s hs).symm
  · rw [exec_update len s hp hzero]
    refine (cmdWrites_data ws len s hne hs hzero hws).trans ?_
    rw [← updateBytes_startReceive, startReceive_closed s ho hl]

/-! ## The buffer after a stream (R137) -/

/-- The lookahead keeps 65 to 128 bytes of a stream longer than the buffer, so R137's count of blocks is `Fed`'s. -/
theorem fedBlocks_eq (n : Nat) : (n - 65) / 64 = (n - 128 + 63) / 64 := by omega

/-- Settles O37: what a fresh context holds after the bytes, with its count of blocks spelled as R137 does. -/
theorem bufferOccupancyLaw : Obligations.BufferOccupancyLaw := by
  refine ⟨fun nn kk s data => ?_, fun s hs => by rw [advanceBlock_buflen, hs]⟩
  obtain ⟨-, -, hbuflen, hcount, hchain, hctr, hvalid⟩ := (Fed.init nn kk s).updateBytes data
  rw [List.nil_append, fedBlocks_eq] at hbuflen hcount hchain hctr hvalid
  refine ⟨fun hfit => ⟨?_, ?_⟩, fun hlong => ⟨hbuflen, ?_, ?_, hctr⟩, hcount, hchain, fun j => hvalid j j.isLt⟩
  all_goals omega

/-! ## The buffer shifts of one step (R132, R150) -/

/-- At most one buffer shift lies between the two states. -/
def ShiftsAtMostOnce (s t : State) : Prop := t.freeCtr = s.freeCtr ∨ t.freeCtr = s.freeCtr + 1

/-- A payload of at most a block overflows the buffer at most once. -/
theorem updateBytes_shiftsAtMostOnce (data : List Byte) (s : State) (hs : s.buflen ≤ 128) (hlen : data.length ≤ 64) :
    ShiftsAtMostOnce s (updateBytes data s) := by
  by_cases hfit : s.buflen + data.length ≤ 128
  · rw [updateBytes_room data s hfit]
    exact .inl rfl
  · rw [updateBytes_one_advance data s hs (by omega) (by omega)]
    exact .inr rfl

/-- Only the flush of the lookahead shifts; the last compression does not. -/
theorem finishHash_shiftsAtMostOnce (s : State) : ShiftsAtMostOnce s (finishHash s) := by
  rw [finishHash, ShiftsAtMostOnce, closeHash_freeCtr, flushLookahead]
  split
  · exact .inr rfl
  · exact .inl rfl

theorem ExecEffect.shiftsAtMostOnce {i : Instr} {s t : State} (he : ExecEffect s i t) (hs : s.buflen ≤ 128) :
    ShiftsAtMostOnce s t := by
  cases he with
  | ignored _ _ => exact .inl rfl
  | raised _ _ _ _ _ _ _ => exact .inl rfl
  | init _ _ _ => exact .inl rfl
  | initKeyed _ _ _ _ _ => exact .inl rfl
  | keyword w _ => exact .inl (closeKeyBlock_freeCtr _)
  | updateZero _ => exact .inl rfl
  | update _ _ _ => exact .inl rfl
  | dataword w _ =>
    have hlen := payloadBytes_length s.rxLeft.toNat w
    exact updateBytes_shiftsAtMostOnce _ s hs (by omega)
  | finalize _ => exact finishHash_shiftsAtMostOnce s

theorem CmdEffect.shiftsAtMostOnce {w : Word} {s t : State} (hc : CmdEffect w s t) (hs : s.buflen ≤ 128) :
    ShiftsAtMostOnce s t := by
  cases hc with
  | ignored _ => exact .inl rfl
  | illegal _ _ => exact .inl rfl
  | header _ _ _ _ _ _ he => exact he.shiftsAtMostOnce hs
  | key _ _ _ _ he => exact he.shiftsAtMostOnce hs
  | data _ _ _ _ he => exact he.shiftsAtMostOnce hs

theorem StepEffect.shiftsAtMostOnce {s t : State} (he : StepEffect s t) (hs : s.buflen ≤ 128) :
    ShiftsAtMostOnce s t := by
  cases he with
  | wait _ => exact .inl rfl
  | reset _ _ => exact .inl rfl
  | cmd _ _ _ _ hc => exact hc.shiftsAtMostOnce hs
  | ignoredWrite _ _ _ _ _ => exact .inl rfl
  | read _ _ _ _ _ => exact .inl rfl
  | digestError _ _ _ _ _ => exact .inl rfl

/-- Settles O53: a step performs at most one CMD word, which shifts at most once. -/
theorem bufferShiftsPerStepAreBounded : Obligations.BufferShiftsPerStepAreBounded := by
  intro s t hs h
  obtain hsame | hone := (step_cases h).shiftsAtMostOnce hs <;> omega

end Sys2Proof.Machine
end

section
/-! PROOFS. FINALIZE and the digest (R150, R152, R155, R157): the two cases of the flush with the counter and the last
block they give, and what a step in DONE can do to the digest. -/

namespace Sys2Proof.Machine

/-! ## The two cases of the flush (R150 step 1) -/

theorem finishHash_of_le (s : State) (h : s.buflen ≤ 64) : finishHash s = closeHash s := by
  rw [finishHash, flushLookahead, if_neg (Nat.not_lt.mpr h)]

theorem finishHash_of_gt (s : State) (h : 64 < s.buflen) : finishHash s = closeHash (advanceBlock s) := by
  rw [finishHash, flushLookahead, if_pos h]

/-- Flushed or not, FINALIZE counts every valid byte once (R155). -/
theorem finishHash_count (s : State) :
    (finishHash s).t0 = countLow s s.buflen ∧ (finishHash s).t1 = countHigh s s.buflen := by
  by_cases hle : s.buflen ≤ 64
  · rw [finishHash_of_le s hle]
    exact ⟨incT_t0_eq _ s, incT_t1_eq _ s⟩
  · have hflush : 64 < s.buflen := Nat.lt_of_not_le hle
    obtain ⟨ht0, ht1⟩ := incT_advanceBlock s (s.buflen - 64)
    rw [Nat.sub_add_cancel hflush.le] at ht0 ht1
    rw [finishHash_of_gt s hflush]
    exact ⟨ht0.trans (incT_t0_eq _ s), ht1.trans (incT_t1_eq _ s)⟩

/-! ## The last block (R150 steps 4 and 5) -/

/-- The block of the last compression is the valid bytes, padded with zeros. -/
theorem frontBlock_zeroTail (s : State) :
    frontBlock (zeroTail s).buf = Vector.ofFn fun i => if i.val < s.buflen then s.buf[i.val] else 0 := by
  apply Vector.ext
  intro i hi
  rw [frontBlock_get _ i hi, zeroTail_get, Vector.getElem_ofFn]
  by_cases hvalid : i < s.buflen
  · rw [if_neg (by omega), if_pos hvalid]
  · rw [if_pos (by omega), if_neg hvalid]

/-- After the flush the front of the buffer is the tail that stood behind it, padded with zeros. -/
theorem zeroTail_advanceBlock_get (s : State) (j : Fin 64) :
    (zeroTail (advanceBlock s)).buf[j.val] = if j.val < s.buflen - 64 then s.buf[j.val + 64] else 0 := by
  rw [zeroTail_get, advanceBlock_buflen, advanceBlock_buf_front]
  by_cases hvalid : j.val < s.buflen - 64
  · rw [if_neg (by omega), if_pos hvalid]
  · rw [if_pos (by omega), if_neg hvalid]

theorem frontBlock_zeroTail_advanceBlock (s : State) :
    frontBlock (zeroTail (advanceBlock s)).buf =
      Vector.ofFn fun i => if i.val < s.buflen - 64 then s.buf[i.val + 64] else 0 := by
  apply Vector.ext
  intro i hi
  rw [frontBlock_get _ i hi, Vector.getElem_ofFn]
  exact zeroTail_advanceBlock_get s ⟨i, hi⟩

/-- The chain after one compression. -/
theorem finishHash_h_of_le (s : State) (h : s.buflen ≤ 64) :
    (finishHash s).h = compress s.h (countLow s s.buflen) (countHigh s s.buflen) lastBlockFlag s.f1
      (Vector.ofFn fun i => if i.val < s.buflen then s.buf[i.val] else 0) := by
  rw [finishHash_of_le s h, closeHash_h, incT_t0_eq, incT_t1_eq, frontBlock_zeroTail]

/-- The chain after two compressions: the block in front with the flags as they stand, then the last one. -/
theorem finishHash_h_of_gt (s : State) (h : 64 < s.buflen) :
    (finishHash s).h =
      compress (compress s.h (countLow s 64) (countHigh s 64) s.f0 s.f1 (Vector.ofFn fun i => s.buf[i.val]))
        (countLow s s.buflen) (countHigh s s.buflen) lastBlockFlag s.f1
        (Vector.ofFn fun i => if i.val < s.buflen - 64 then s.buf[i.val + 64] else 0) := by
  obtain ⟨ht0, ht1⟩ := finishHash_count s
  rw [finishHash_of_gt s h] at ht0 ht1 ⊢
  rw [closeHash_h, ← closeHash_t0, ← closeHash_t1, ht0, ht1, advanceBlock_h, incT_t0_eq, incT_t1_eq,
    frontBlock_eq s.buf, advanceBlock_f1, frontBlock_zeroTail_advanceBlock]

/-- Settles O38: the count and the frame are the same in both cases; the buffer and the chain are each case's own. -/
theorem finalizeClosesTheHash : Obligations.FinalizeClosesTheHash := by
  intro s hp _
  obtain ⟨ht0, ht1⟩ := finishHash_count s
  refine ⟨finishHash s, exec_finalize s hp, finishHash_phase s, finishHash_f0 s, finishHash_f1 s, ht0, ht1,
    finishHash_rxOp s, finishHash_rxLeft s, finishHash_errcode s, finishHash_errword s, finishHash_pending s,
    finishHash_readData s, fun hle => ?_, fun hflush => ?_⟩
  · refine ⟨?_, ?_, fun j => ?_, finishHash_h_of_le s hle⟩ <;> rw [finishHash_of_le s hle]
    · rfl
    · rfl
    · exact zeroTail_get s j j.isLt
  · refine ⟨?_, ?_, fun j => ?_, finishHash_h_of_gt s hflush⟩ <;> simp only [finishHash_of_gt s hflush]
    · rfl
    · rfl
    · exact zeroTail_advanceBlock_get s j

/-! ## The digest in DONE (R152, R157) -/

/-- A header in DONE raises an error, which keeps the chain, or starts a new context. -/
theorem ExecEffect.header_of_done {i : Instr} {s t : State} (he : ExecEffect s i t) (hd : s.phase = .done)
    (hk : i.kind = .header) : (t.phase = .error ∧ t.h = s.h) ∨ t.phase = .absorb := by
  cases he with
  | ignored _ hp => rw [hd] at hp; cases hp
  | raised _ _ _ _ _ _ _ => exact .inl ⟨rfl, rfl⟩
  | init _ _ _ => exact .inr rfl
  | initKeyed _ _ _ _ _ => exact .inr rfl
  | keyword _ _ => cases hk
  | updateZero hp => rw [hd] at hp; cases hp
  | update _ hp _ => rw [hd] at hp; cases hp
  | dataword _ _ => cases hk
  | finalize hp => rw [hd] at hp; cases hp

/-- In DONE the receiver is closed (R26 (e), (f)), so a CMD word is a header. -/
theorem Inv.rxLeft_of_done {s : State} (hi : Inv s) (hd : s.phase = .done) : s.rxLeft = 0 :=
  hi.rx_closed_iff.1 <| by_contra fun ho => absurd (hi.rx_only_absorb ho) (by rw [hd]; decide)

theorem CmdEffect.of_done {w : Word} {s t : State} (hc : CmdEffect w s t) (hd : s.phase = .done)
    (hl : s.rxLeft = 0) : (t.phase = .error ∧ t.h = s.h) ∨ t.phase = .absorb := by
  cases hc with
  | ignored hp => rw [hd] at hp; cases hp
  | illegal _ _ => exact .inl ⟨rfl, rfl⟩
  | header _ _ _ _ hk _ he => exact he.header_of_done hd hk
  | key _ _ hpending _ _ => exact absurd hl hpending
  | data _ _ hpending _ _ => exact absurd hl hpending

/-- Settles O51: only reset and a CMD word change an element; a DIGEST read raises no error in DONE. -/
theorem digestStaysUntilTheNextContext : Obligations.DigestStaysUntilTheNextContext := by
  intro s t hi hd h
  cases step_cases h with
  | wait _ => exact .inl (by constructor <;> rfl)
  | reset rest hp => exact .inr (.inr (.inr ⟨rest, hp⟩))
  | cmd w rest _ _ hc =>
    obtain herr | hnew := hc.of_done hd (hi.rxLeft_of_done hd)
    · exact .inr (.inl herr)
    · exact .inr (.inr (.inl hnew))
  | ignoredWrite _ _ _ _ _ => exact .inl (by constructor <;> rfl)
  | read _ _ _ _ _ => exact .inl (by constructor <;> rfl)
  | digestError _ _ _ hp _ =>
    rw [hd] at hp
    obtain hp | hp := hp <;> cases hp

end Sys2Proof.Machine
end

section
/-! PROOFS. The mixing function G (R174, R177): what each word of the working vector is afterwards, and why invocations
on disjoint words commute. -/

namespace Sys2Proof.Machine

/-- One of the two like halves of G's eight steps (R174): four steps with one message word and two rotation counts. -/
def mixHalf (v : Vector Word 16) (a b c d : Fin 16) (z : Word) (m n : Nat) : Vector Word 16 :=
  let v := v.set a (v[a] + v[b] + z)
  let v := v.set d (rotr32 (v[d] ^^^ v[a]) m)
  let v := v.set c (v[c] + v[d])
  v.set b (rotr32 (v[b] ^^^ v[c]) n)

theorem mixG_eq_mixHalf_mixHalf (v : Vector Word 16) (a b c d : Fin 16) (x y : Word) :
    mixG v a b c d x y = mixHalf (mixHalf v a b c d x 16 12) a b c d y 8 7 := rfl

/-- A half writes no word but the four. -/
theorem mixHalf_get_of_notMem (v : Vector Word 16) (a b c d : Fin 16) (z : Word) (m n : Nat) (j : Fin 16)
    (hj : j ∉ [a, b, c, d]) : (mixHalf v a b c d z m n)[j] = v[j] := by
  simp only [List.mem_cons, List.not_mem_nil, or_false, not_or] at hj
  obtain ⟨hja, hjb, hjc, hjd⟩ := hj
  rw [mixHalf, get_set_other _ _ _ _ (Ne.symm hjb), get_set_other _ _ _ _ (Ne.symm hjc),
    get_set_other _ _ _ _ (Ne.symm hjd), get_set_other _ _ _ _ (Ne.symm hja)]

theorem mixG_get_of_notMem (v : Vector Word 16) (a b c d : Fin 16) (x y : Word) (j : Fin 16)
    (hj : j ∉ [a, b, c, d]) : (mixG v a b c d x y)[j] = v[j] := by
  rw [mixG_eq_mixHalf_mixHalf, mixHalf_get_of_notMem _ _ _ _ _ _ _ _ _ hj, mixHalf_get_of_notMem _ _ _ _ _ _ _ _ _ hj]

/-- The four words of a half, each by the step that writes it: a step reads old words and words already written. -/
theorem mixHalf_get (v : Vector Word 16) (a b c d : Fin 16) (z : Word) (m n : Nat) (hd : [a, b, c, d].Nodup) :
    (mixHalf v a b c d z m n)[a] = v[a] + v[b] + z ∧
    (mixHalf v a b c d z m n)[d] = rotr32 (v[d] ^^^ (mixHalf v a b c d z m n)[a]) m ∧
    (mixHalf v a b c d z m n)[c] = v[c] + (mixHalf v a b c d z m n)[d] ∧
    (mixHalf v a b c d z m n)[b] = rotr32 (v[b] ^^^ (mixHalf v a b c d z m n)[c]) n := by
  simp only [List.nodup_cons, List.mem_cons, List.not_mem_nil, or_false, not_or, not_false_eq_true, List.nodup_nil,
    and_true] at hd
  obtain ⟨⟨hab, hac, had⟩, ⟨hbc, hbd⟩, hcd⟩ := hd
  simp only [mixHalf, get_set_self, get_set_other, hab, hac, had, hbc, hbd, hcd, Ne.symm hab, Ne.symm hac, Ne.symm had,
    Ne.symm hbc, Ne.symm hbd, Ne.symm hcd, ne_eq, not_false_eq_true, and_self]

/-- Settles O42: the two halves of G, each with its four words and its frame. -/
theorem mixGRunsTheEightSteps : Obligations.MixGRunsTheEightSteps := by
  intro v a b c d x y hd
  obtain ⟨ha1, hd1, hc1, hb1⟩ := mixHalf_get v a b c d x 16 12 hd
  obtain ⟨ha2, hd2, hc2, hb2⟩ := mixHalf_get (mixHalf v a b c d x 16 12) a b c d y 8 7 hd
  rw [← mixG_eq_mixHalf_mixHalf] at ha2 hd2 hc2 hb2
  simp only [hb2, hc2, hd2, ha2, hb1, hc1, hd1, ha1, rotr32_eq_rotateRight, Nat.reduceLT, true_and]
  exact mixG_get_of_notMem v a b c d x y

/-- What G writes depends on the four old words alone. -/
theorem mixG_get_congr (v w : Vector Word 16) (a b c d : Fin 16) (x y : Word) (hd : [a, b, c, d].Nodup)
    (hvw : ∀ j ∈ [a, b, c, d], v[j] = w[j]) :
    ∀ j ∈ [a, b, c, d], (mixG v a b c d x y)[j] = (mixG w a b c d x y)[j] := by
  obtain ⟨hva, hvb, hvc, hvd, -⟩ := mixGRunsTheEightSteps v a b c d x y hd
  obtain ⟨hwa, hwb, hwc, hwd, -⟩ := mixGRunsTheEightSteps w a b c d x y hd
  simp only [List.forall_mem_cons, List.not_mem_nil, false_imp_iff, implies_true, and_true] at hvw ⊢
  obtain ⟨ea, eb, ec, ed⟩ := hvw
  rw [hva, hvb, hvc, hvd, hwa, hwb, hwc, hwd, ea, eb, ec, ed]
  exact ⟨rfl, rfl, rfl, rfl⟩

/-- On its own four words an invocation of G gives the same before and after one on other words. -/
theorem mixG_mixG_get_of_disjoint (v : Vector Word 16) (a b c d a' b' c' d' : Fin 16) (x y x' y' : Word)
    (hd : [a, b, c, d].Nodup) (hdisj : [a, b, c, d].Disjoint [a', b', c', d']) (j : Fin 16) (hj : j ∈ [a, b, c, d]) :
    (mixG (mixG v a b c d x y) a' b' c' d' x' y')[j] = (mixG (mixG v a' b' c' d' x' y') a b c d x y)[j] := by
  rw [mixG_get_of_notMem _ a' b' c' d' x' y' j (hdisj hj)]
  exact mixG_get_congr _ _ a b c d x y hd (fun i hi => (mixG_get_of_notMem v a' b' c' d' x' y' i (hdisj hi)).symm) j hj

/-- Settles O43, word by word: a word is written by the one invocation, by the other, or by neither. -/
theorem disjointMixesCommute : Obligations.DisjointMixesCommute := by
  intro v a b c d a' b' c' d' x y x' y' hall
  obtain ⟨hd, hd', hdisj⟩ := (List.nodup_append' (l₁ := [a, b, c, d])).1 hall
  have hword (j : Fin 16) :
      (mixG (mixG v a b c d x y) a' b' c' d' x' y')[j] = (mixG (mixG v a' b' c' d' x' y') a b c d x y)[j] := by
    by_cases hj : j ∈ [a, b, c, d]
    · exact mixG_mixG_get_of_disjoint v a b c d a' b' c' d' x y x' y' hd hdisj j hj
    · by_cases hj' : j ∈ [a', b', c', d']
      · exact (mixG_mixG_get_of_disjoint v a' b' c' d' a b c d x' y' x y hd' hdisj.symm j hj').symm
      · simp only [mixG_get_of_notMem, hj, hj', not_false_eq_true]
  exact Vector.ext fun i hi => hword ⟨i, hi⟩

end Sys2Proof.Machine
end

section
/-! PROOFS. The message schedule (R171) and the example of R179. -/

namespace Sys2Proof.Machine

/-- The rows are searched one by one; the instance for `∀ row ∈ sigma` would range over all vectors of the type. -/
theorem sigma_all_rows_hold_every_index : sigma.all (fun row => decide (∀ k : Fin 16, k ∈ row.toList)) = true := by
  decide

/-- Settles O44: the rows are compared in pairs, and every row is searched for every index. -/
theorem sigmaRowsArePermutations : Obligations.SigmaRowsArePermutations :=
  ⟨rfl, by decide, fun row hrow => of_decide_eq_true (List.all_eq_true.1 sigma_all_rows_hold_every_index row hrow)⟩

theorem compress_eq (h : Vector Word 8) (t0 t1 f0 f1 : Word) (b : Vector Byte 64) :
    compress h t0 t1 f0 f1 b =
      chainOut h (sigma.foldl (fun v s => roundStep v (messageWords b) s) (workInit h t0 t1 f0 f1)) := by
  rw [compress]

/-- The block of R175's example and R179's: "abc", then 61 zero bytes. -/
def abcBlock : Vector Byte 64 :=
  Vector.ofFn fun i => if i.val = 0 then 0x61 else if i.val = 1 then 0x62 else if i.val = 2 then 0x63 else 0

theorem messageWords_abcBlock :
    messageWords abcBlock = #v[0x00636261, 0, 0, 0, 0, 0, 0, 0, 0, 0, 0, 0, 0, 0, 0, 0] := by
  decide +kernel

/-- Settles O45: with the message words of the block written out, the kernel evaluates the ten rounds. -/
theorem compressKnownAnswer : Obligations.CompressKnownAnswer := by
  change compress _ 3 0 0xFFFFFFFF 0 abcBlock = _
  rw [compress_eq, messageWords_abcBlock]
  decide +kernel

end Sys2Proof.Machine
end

section
/-! PROOFS. The checks of a header word (R202, R207): what the decoder and `headerError` read from the same fields, and the
answer of a CMD write to a header. -/

namespace Sys2Proof.Machine

/-! ## The checks, read from the fields -/

/-- A reserved opcode or a set reserved bit (R202). -/
def IllegalHeader (w : Word) : Prop :=
  (opcodeField w).toNat = 0 ∨ 5 ≤ (opcodeField w).toNat ∨
    opcodeField w = 1 ∧ w.extractLsb' 16 16 ≠ 0 ∨ opcodeField w = 2 ∧ w.extractLsb' 24 8 ≠ 0 ∨
    opcodeField w = 4 ∧ w.extractLsb' 8 24 ≠ 0

/-- What the decoder makes of a header word, with the fields it has seen. -/
inductive HeaderReading (w : Word) : Except DecodeReject Instr → Prop where
  | illegal (r : DecodeReject) (hw : IllegalHeader w) : HeaderReading w (.error r)
  | init (ho : opcodeField w = 1) (hz : w.extractLsb' 16 16 = 0) : HeaderReading w (.ok (.init (nnField w)))
  | initKeyed (ho : opcodeField w = 2) (hz : w.extractLsb' 24 8 = 0) :
      HeaderReading w (.ok (.initKeyed (nnField w) (kkField w)))
  | update (ho : opcodeField w = 3) : HeaderReading w (.ok (.update (lenField w)))
  | finalize (ho : opcodeField w = 4) (hz : w.extractLsb' 8 24 = 0) : HeaderReading w (.ok .finalize)

theorem decodeHeader_reading (w : Word) : HeaderReading w (decodeHeader w) := by
  unfold decodeHeader
  split_ifs with h1 hz h2 hz h3 h4 hz
  · exact .init h1 hz
  · exact .illegal _ (.inr (.inr (.inl ⟨h1, hz⟩)))
  · exact .initKeyed h2 hz
  · exact .illegal _ (.inr (.inr (.inr (.inl ⟨h2, hz⟩))))
  · exact .update h3
  · exact .finalize h4 hz
  · exact .illegal _ (.inr (.inr (.inr (.inr ⟨h4, hz⟩))))
  · have hreserved : (opcodeField w).toNat = 0 ∨ 5 ≤ (opcodeField w).toNat := by bv_omega
    exact .illegal _ (hreserved.imp id .inl)

/-- The first two checks of R207 are the ILLEGAL ones, whatever the phase. -/
theorem headerError_eq_illegal_iff (phase : Phase) (w : Word) :
    headerError phase w = some .illegal ↔ IllegalHeader w := by
  have hop (c : Byte) : opcodeField w = c ↔ (w.extractLsb' 0 8).toNat = c.toNat := BitVec.toNat_inj.symm
  simp only [IllegalHeader, hop, ← or_assoc (b := 5 ≤ _)]
  dsimp only [headerError]
  split_ifs with hopcode hbits hsequence hsize hkey
  · exact iff_of_true rfl (.inl hopcode)
  · exact iff_of_true rfl (.inr hbits)
  all_goals exact iff_of_false nofun (not_or.2 ⟨hopcode, hbits⟩)

theorem not_legalDigestSize_iff (nn : Byte) : ¬ legalDigestSize nn ↔ nn.toNat < 1 ∨ 32 < nn.toNat := by
  rw [legalDigestSize, Config.maxOut]; omega

theorem not_legalKeyLen_iff (kk : Byte) : ¬ legalKeyLen kk ↔ kk.toNat < 1 ∨ 32 < kk.toNat := by
  rw [legalKeyLen, Config.maxKey]; omega

theorem headerError_init {w : Word} (phase : Phase) (ho : opcodeField w = 1) (hz : w.extractLsb' 16 16 = 0) :
    headerError phase w = if ¬ legalDigestSize (nnField w) then some .badDigestSize else none := by
  have hop : (w.extractLsb' 0 8).toNat = 1 := congrArg BitVec.toNat ho
  simp only [not_legalDigestSize_iff]
  simp [headerError, hop, hz, nnField]

theorem headerError_initKeyed {w : Word} (phase : Phase) (ho : opcodeField w = 2) (hz : w.extractLsb' 24 8 = 0) :
    headerError phase w =
      if ¬ legalDigestSize (nnField w) then some .badDigestSize
      else if ¬ legalKeyLen (kkField w) then some .badKeyLen else none := by
  have hop : (w.extractLsb' 0 8).toNat = 2 := congrArg BitVec.toNat ho
  simp only [not_legalDigestSize_iff, not_legalKeyLen_iff]
  simp [headerError, hop, hz, nnField, kkField]

theorem headerError_update {w : Word} (phase : Phase) (ho : opcodeField w = 3) :
    headerError phase w = if phase ≠ .absorb then some .sequence else none := by
  have hop : (w.extractLsb' 0 8).toNat = 3 := congrArg BitVec.toNat ho
  simp [headerError, hop]

theorem headerError_finalize {w : Word} (phase : Phase) (ho : opcodeField w = 4) (hz : w.extractLsb' 8 24 = 0) :
    headerError phase w = if phase ≠ .absorb then some .sequence else none := by
  have hop : (w.extractLsb' 0 8).toNat = 4 := congrArg BitVec.toNat ho
  simp [headerError, hop, hz]

/-! ## The answer of a CMD write -/

/-- What a header word is answered: its first failing check is reported (R200, R207), or it passes every check and leaves
the error record as it is. -/
inductive HeaderAnswer (w : Word) (s : State) : Result → Prop where
  | reported (c : ErrCode) (hc : headerError s.phase w = some c) : HeaderAnswer w s (.next (raiseError c w s))
  | accepted (t : State) (hc : headerError s.phase w = none) (ht : t.phase ≠ .error) (hr : SameRecord s t) :
      HeaderAnswer w s (.next t)

/-- A decoded header runs the checks the decoder leaves to it, in the order of R207. -/
theorem exec_headerAnswer {w : Word} {i : Instr} (s : State) (hp : s.phase ≠ .error) (hd : decodeHeader w = .ok i) :
    HeaderAnswer w s (exec i s) := by
  obtain ⟨-, hw⟩ := encode_of_decodeHeader w i hd
  have hreading := decodeHeader_reading w
  rw [hd] at hreading
  cases hreading with
  | init ho hz =>
    have hc := headerError_init s.phase ho hz
    by_cases hn : legalDigestSize (nnField w)
    · rw [if_neg (not_not_intro hn)] at hc
      rw [exec_init _ s hp hn]
      exact .accepted _ hc nofun ⟨rfl, rfl⟩
    · rw [if_pos hn] at hc
      rw [exec_init_bad _ s hp hn, hw]
      exact .reported _ hc
  | initKeyed ho hz =>
    have hc := headerError_initKeyed s.phase ho hz
    by_cases hn : legalDigestSize (nnField w)
    · rw [if_neg (not_not_intro hn)] at hc
      by_cases hk : legalKeyLen (kkField w)
      · rw [if_neg (not_not_intro hk)] at hc
        rw [exec_initKeyed _ _ s hp hn hk]
        exact .accepted _ hc nofun ⟨rfl, rfl⟩
      · rw [if_pos hk] at hc
        rw [exec_initKeyed_badKey _ _ s hp hn hk, hw]
        exact .reported _ hc
    · rw [if_pos hn] at hc
      rw [exec_initKeyed_badSize _ _ s hp hn, hw]
      exact .reported _ hc
  | update ho =>
    have hc := headerError_update s.phase ho
    by_cases ha : s.phase = .absorb
    · rw [if_neg (not_not_intro ha)] at hc
      obtain hl | hl := eq_or_ne (lenField w) 0
      · rw [hl, exec_update_zero s ha]
        exact .accepted _ hc hp ⟨rfl, rfl⟩
      · rw [exec_update _ s ha hl]
        exact .accepted _ hc hp ⟨rfl, rfl⟩
    · rw [if_pos ha] at hc
      rw [exec_update_bad _ s hp ha, hw]
      exact .reported _ hc
  | finalize ho hz =>
    have hc := headerError_finalize s.phase ho hz
    by_cases ha : s.phase = .absorb
    · rw [if_neg (not_not_intro ha)] at hc
      rw [exec_finalize s ha]
      exact .accepted _ hc (by simp) ⟨by simp, by simp⟩
    · rw [if_pos ha] at hc
      rw [exec_finalize_bad s hp ha, hw]
      exact .reported _ hc

/-- The decoder makes the first two checks of R207, the command it decodes the other three. -/
theorem cmdWrite_headerAnswer (w : Word) (s : State) (hp : s.phase ≠ .error) (hl : s.rxLeft = 0) :
    HeaderAnswer w s (cmdWrite w s) := by
  cases hd : decodeHeader w with
  | ok i =>
    rw [cmdWrite_header w s i hp hl hd]
    exact exec_headerAnswer s hp hd
  | error r =>
    have hreading := decodeHeader_reading w
    rw [hd] at hreading
    cases hreading with
    | illegal _ hw =>
      rw [cmdWrite_illegal w s r hp hl hd]
      exact .reported _ ((headerError_eq_illegal_iff s.phase w).2 hw)

/-- Settles O12: the two answers a header can get are the two cases of the statement. -/
theorem headerChecksInPriorityOrder : Obligations.HeaderChecksInPriorityOrder := by
  intro w s hp hl
  have hanswer := cmdWrite_headerAnswer w s hp hl
  generalize cmdWrite w s = r at hanswer ⊢
  cases hanswer with
  | reported c hc => exact ⟨_, rfl, by rw [hc]; rfl⟩
  | accepted t hc ht hr => exact ⟨t, rfl, by rw [hc]; exact ⟨ht, hr⟩⟩

/-- A payload word leaves the phase, so it enters no error and leaves the error record (R76). -/
theorem ExecEffect.payload_record {i : Instr} {s t : State} (he : ExecEffect s i t) (hk : i.kind ≠ .header) :
    SameRecord s t :=
  he.record.resolve_left fun ⟨hs, ht⟩ => hs (he.payload_phase hk ▸ ht)

/-- A CMD word that is no header leaves the error record. -/
theorem CmdEffect.payload_record {w : Word} {s t : State} (hc : CmdEffect w s t) (hl : s.rxLeft ≠ 0) :
    SameRecord s t := by
  cases hc with
  | ignored _ => exact ⟨rfl, rfl⟩
  | illegal _ hheader => exact absurd hheader hl
  | header _ _ _ hheader _ _ _ => exact absurd hheader hl
  | key _ _ _ _ he => exact he.payload_record nofun
  | data _ _ _ _ he => exact he.payload_record nofun

/-- Settles O13: a header records ILLEGAL when that is its first failing check, and a payload word records nothing. -/
theorem illegalHeadersAreExactlyThese : Obligations.IllegalHeadersAreExactlyThese := by
  intro w s hp hnone hrx
  by_cases hl : s.rxLeft = 0
  · have hanswer := cmdWrite_headerAnswer w s hp hl
    have hfirst := headerError_eq_illegal_iff s.phase w
    generalize cmdWrite w s = r at hanswer ⊢
    cases hanswer with
    | reported c hc =>
      rw [hc, Option.some_inj] at hfirst
      exact ⟨_, rfl, hfirst.trans (and_iff_right hl).symm⟩
    | accepted t hc ht hr =>
      rw [hc] at hfirst
      refine ⟨t, rfl, iff_of_false ?_ fun hw => nomatch hfirst.2 hw.2⟩
      rw [hr.1, hnone]
      exact nofun
  · obtain ⟨t, ht⟩ := cmdWrite_next w s hrx
    obtain ⟨hcode, -⟩ := (cmdWrite_cases ht).payload_record hl
    refine ⟨t, ht, iff_of_false ?_ fun hw => hl hw.1⟩
    rw [hcode, hnone]
    exact nofun

end Sys2Proof.Machine
end

section
/-! PROOFS. Error entry (R200, R203 to R206) and the phase ERROR (R208). -/

namespace Sys2Proof.Machine

/-! ## Error entry -/

/-- An instruction that enters ERROR has no effect but the entry, with the word it is spelled by. -/
theorem ExecEffect.eq_raiseError {i : Instr} {s t : State} (he : ExecEffect s i t) (herr : EntersError s t) :
    ∃ c, c ≠ .none ∧ c ≠ .digestRead ∧ t = raiseError c (encode i) s := by
  obtain ⟨hs, ht⟩ := herr
  cases he with
  | ignored _ hp => exact absurd hp hs
  | raised _ c _ _ hc _ hd => exact ⟨c, hc, hd, rfl⟩
  | init _ _ _ => cases ht
  | initKeyed _ _ _ _ _ => cases ht
  | keyword w _ => exact absurd (by simpa using ht) hs
  | updateZero _ => exact absurd ht hs
  | update _ _ _ => exact absurd ht hs
  | dataword w _ => exact absurd (by simpa using ht) hs
  | finalize _ => rw [finishHash_phase] at ht; cases ht

/-- A CMD write that enters ERROR has no effect but the entry, with the word written. -/
theorem CmdEffect.eq_raiseError {w : Word} {s t : State} (hc : CmdEffect w s t) (herr : EntersError s t) :
    ∃ c, c ≠ .none ∧ c ≠ .digestRead ∧ t = raiseError c w s := by
  cases hc with
  | ignored hp => exact absurd hp herr.1
  | illegal _ _ => exact ⟨.illegal, nofun, nofun, rfl⟩
  | header i _ _ _ _ hw he => exact hw ▸ he.eq_raiseError herr
  | key _ _ _ _ he => exact he.eq_raiseError herr
  | data _ _ _ _ he => exact he.eq_raiseError herr

/-- Settles O17: a CMD word and a DIGEST read are the inputs that enter ERROR, and both do so by the error entry. -/
theorem errorEntryIsPrecise : Obligations.ErrorEntryIsPrecise := by
  intro s t h hs ht
  cases step_cases h with
  | wait _ => exact absurd ht hs
  | reset _ _ => cases ht
  | cmd w rest _ hp hc =>
    obtain ⟨c, hcause, hread, rfl⟩ := hc.eq_raiseError ⟨hs, ht⟩
    exact ⟨hcause, rfl, rfl, rfl, rfl, rfl, rfl, rfl, rfl, rfl, rfl, .inl ⟨w, rest, hp, rfl, rfl, hread⟩⟩
  | ignoredWrite _ _ _ _ _ => exact absurd ht hs
  | read _ _ _ _ _ => exact absurd ht hs
  | digestError off rest hp _ ho =>
    exact ⟨nofun, rfl, rfl, rfl, rfl, rfl, rfl, rfl, rfl, rfl, rfl, .inr ⟨off, rest, hp, rfl, rfl, rfl, rfl, ho⟩⟩

/-! ## DIGEST reads -/

theorem readRegister_digest (i : Fin 8) (s : State) : readRegister (0x20 + 4 * i.val) s = readDigest i s := by
  have hi := i.isLt
  have hindex : (0x20 + 4 * i.val - 0x20) / 4 = i.val := by omega
  rw [readRegister, if_neg (by omega), if_neg (by omega), dif_pos (by omega)]
  simp only [hindex]

theorem busRead_digest (i : Fin 8) (s : State) : busRead .word (0x20 + 4 * i.val) s = .next (readDigest i s) := by
  have hi := i.isLt
  rw [busRead_word _ s (by omega) (by omega), readRegister_digest]

/-- Settles O24, by the phase. -/
theorem digestReadsByPhase : Obligations.DigestReadsByPhase := by
  intro s i
  rw [busRead_digest]
  refine ⟨fun hp => ?_, fun hp => ?_, fun hp => ?_⟩
  · rw [readDigest_done i s hp]; rfl
  · rw [readDigest_error i s hp]; rfl
  · rw [readDigest_raises i s hp]; rfl

/-! ## The phase ERROR -/

/-- In ERROR a CMD write is ignored, so no other effect is possible (R208). -/
theorem CmdEffect.eq_of_error {w : Word} {s t : State} (hc : CmdEffect w s t) (hp : s.phase = .error) : t = s := by
  cases hc with
  | ignored _ => rfl
  | illegal h _ => exact absurd hp h
  | header _ _ h _ _ _ _ => exact absurd hp h
  | key _ h _ _ _ => exact absurd hp h
  | data _ h _ _ _ => exact absurd hp h

theorem sameCore_dropInput (rest : List Input) (s : State) : SameCore (dropInput rest s) s := by
  constructor <;> rfl

/-- No step but reset changes an element in ERROR: a CMD word is ignored, and a DIGEST read raises nothing. -/
theorem StepEffect.sameCore_of_error {s t : State} (he : StepEffect s t) (hp : s.phase = .error) :
    SameCore t s ∨ ∃ rest, s.pending = .reset :: rest := by
  cases he with
  | wait _ => exact .inl (by constructor <;> rfl)
  | reset rest h => exact .inr ⟨rest, h⟩
  | cmd w rest _ _ hc =>
    rw [hc.eq_of_error hp]
    exact .inl (sameCore_dropInput rest s)
  | ignoredWrite _ _ rest _ _ => exact .inl (sameCore_dropInput rest s)
  | read _ _ _ _ _ => exact .inl (by constructor <;> rfl)
  | digestError _ _ _ h _ =>
    rw [hp] at h
    exact h.elim nofun nofun

/-- Settles O18: CMD writes and register reads by their own laws in ERROR, and every input but reset by its effect. -/
theorem errorPhaseIsSticky : Obligations.ErrorPhaseIsSticky := by
  intro s hp
  obtain ⟨-, hstatus, herrword⟩ := registerReadsFollowTheMap s
  refine ⟨fun w => cmdWrite_error w s hp, fun j hj => (digestReadsByPhase s ⟨j, hj⟩).2.1 hp, hstatus, herrword,
    fun j hj => ?_, fun i rest t hpending hi h => ?_⟩
  · rw [busRead_word _ s (by omega) (by omega), readRegister_reserved _ s (by omega) (by omega)]
    rfl
  · refine ((step_cases h).sameCore_of_error hp).resolve_right fun ⟨_, hreset⟩ => hi ?_
    exact (List.cons.inj (hpending.symm.trans hreset)).1

/-! ## The causes of the commands -/

/-- Settles O14: both constructors check NN first. -/
theorem badDigestSizeIsReported : Obligations.BadDigestSizeIsReported := by
  intro nn kk s hp hrange
  have hn := (not_legalDigestSize_iff nn).2 hrange
  exact ⟨exec_init_bad nn s hp hn, exec_initKeyed_badSize nn kk s hp hn⟩

/-- Settles O15: with NN legal, the check of KK is the first to fail. -/
theorem badKeyLengthIsReported : Obligations.BadKeyLengthIsReported :=
  fun nn kk s hp hlo hhi hrange => exec_initKeyed_badKey nn kk s hp ⟨hlo, hhi⟩ ((not_legalKeyLen_iff kk).2 hrange)

/-- Settles O16: IDLE and DONE are the phases that are neither ERROR nor ABSORB. -/
theorem sequenceErrorsOutsideAbsorb : Obligations.SequenceErrorsOutsideAbsorb := by
  intro len s hphase
  have hp : s.phase ≠ .error := by rcases hphase with h | h <;> rw [h] <;> decide
  have ha : s.phase ≠ .absorb := by rcases hphase with h | h <;> rw [h] <;> decide
  exact ⟨exec_update_bad len s hp ha, exec_finalize_bad s hp ha⟩

end Sys2Proof.Machine
end

section
/-! PROOFS. The step of a core whose host has nothing for it (R232, R237). -/

namespace Sys2Proof.Machine

/-- Settles O2: a step takes the next input of its host, and with none to take it answers the state it was given. -/
theorem coreWaitsWithNoInput : Obligations.CoreWaitsWithNoInput := step_nil

end Sys2Proof.Machine
end
